-- ==== Sys2Proof/Word.lean ====
section
/-! DEFINITION. The number types of the hardware (00_scope.md R15, R17). -/

namespace Sys2Proof

/-- A byte is 8 bits, unsigned (R15). -/
abbrev Byte := BitVec 8

/-- A word is 32 bits, unsigned (R15). -/
abbrev Word := BitVec 32

/-- A 64-bit quantity: the length counters and the u64 fields of frames and responses (R7, D3). -/
abbrev U64 := BitVec 64

/-- A finite sequence of bytes, the first byte at index 0 (R17). -/
abbrev Bytes := List Byte

end Sys2Proof
end

