-- ==== Sys2Proof/Config.lean ====
section
/-! DEFINITION. What is fixed for a machine: the sizes of 00_scope.md R7 to R9, the open parameters SIGMA, MAC and
PENDING_CAP (R10, R12, R13), and the free values of the model, which have no body (log 1). -/

namespace Sys2Proof.Config

/-- The Block Transform runs 10 double-rounds (R8, 90_conflicts.md C13). -/
abbrev doubleRounds : Nat := 10

/-- MAX_BLOCKS = 2^32: the most blocks one (key, nonce) may use (R9). -/
abbrev maxBlocks : Nat := 4294967296

/-- 2^64 - 1: the largest value of a 64-bit quantity. -/
abbrev maxU64 : Nat := 18446744073709551615

/-- Which function the parameter MAC is (R12, D22). `poly1305` is the standard instantiation written out in
93_implementation_defined.md G5 (PRESUMED: general knowledge, log 3). `external n` is a function of which nothing is
known but that its result depends on the key and the message alone: a statement about every state is a statement
about every MAC. -/
inductive Authenticator where
  | poly1305
  | external (id : Nat)
deriving DecidableEq, Repr

/-- The parameters a model takes as arguments (R14; 92_eei_decisions.md, "Parameters left OPEN"). -/
structure Params where
  /-- SIGMA[0..3] (R10). -/
  sigma : Vector Word 4
  /-- MAC (R12). -/
  mac : Authenticator
  /-- PENDING_CAP, a natural number or infinity (`none`) (R13). -/
  pendingCap : Option Nat
deriving DecidableEq, Repr

/-- The default SIGMA (R10; 93_implementation_defined.md G1, general knowledge: PRESUMED, log 3). -/
def sigmaDefault : Vector Word 4 := #v[0x61707865, 0x3320646e, 0x79622d32, 0x6b206574]

/-- The defaults of 92_eei_decisions.md's last table: SIGMA of G1, Poly1305, no capacity limit (log 3). -/
def paramsDefault : Params := { sigma := sigmaDefault, mac := .poly1305, pendingCap := none }

/-- An authenticator outside the hardware: uninterpreted (R12: "The machine assumes nothing of `MAC` except that its
result depends on these two arguments alone"). -/
opaque externalMac (id : Nat) (key : Vector Byte 32) (msg : Bytes) : Vector Byte 16

/-- The fixed-width registers that the spec leaves unspecified at some point, each unit of a register under its own
name (R42, R51, R52). -/
inductive FreeReg where
  | mode | dir | aclosed | ctr0 | ctr | blocks | offset | aadlen | datalen
  | start (word : Nat)
  | ksbuf (index : Nat)
  | authKey (index : Nat)
  | key (index : Nat)
  | nonce (index : Nat)
deriving DecidableEq, Repr

/-- The byte sequences that the spec leaves unspecified at some point (R46, R52). -/
inductive FreeSeq where
  | authMsg | pend
deriving DecidableEq, Repr

/-- FREE VALUE (log 1): the content of a register at the `draw`-th moment at which the spec leaves registers
unspecified. -/
opaque freeBits (r : FreeReg) (draw w : Nat) : BitVec w

/-- FREE VALUE (log 1): the content of an unspecified byte sequence. Its length is free too: DESIGN CHOICE (log 1), since
R47 bounds `PEND` by `PENDING_CAP` where U2 and D29 say any value. -/
opaque freeBytes (r : FreeSeq) (draw : Nat) : Bytes

end Sys2Proof.Config
end

