-- ==== Sys2Proof/Syntax.lean ====
section
/-! DEFINITION. The abstract commands of 30_encoding.md R91: one constructor for each row of spec/opcode_table.json. -/

namespace Sys2Proof

/-- The mode of a session: DOC's PlainStream, or AEAD (10_state.md R27). -/
inductive Mode where
  | stream | aead
deriving DecidableEq, Repr

/-- The direction of a session: DOC's Encrypt, Decrypt (10_state.md R27). -/
inductive Dir where
  | enc | dec
deriving DecidableEq, Repr

/-- An abstract command (R91). `key` and `nonce` have any length, so that `InvalidKey` can be reached (D25). -/
inductive Instr where
  /-- INIT (R160). -/
  | init (dir : Dir) (mode : Mode) (key nonce : Bytes) (ictr : Word)
  /-- UPDATE_AAD (R190). -/
  | updateAad (data : Bytes)
  /-- UPDATE (R180). -/
  | update (data : Bytes) (outcap : U64)
  /-- FINALIZE (R181). -/
  | finalize (data : Bytes) (outcap : U64)
  /-- GET_OUTPUT_SIZE (R170). -/
  | getOutputSize (n : U64) (isfinal : Bool)
deriving DecidableEq, Repr

end Sys2Proof
end

