-- ==== Sys2Proof/WellFormed.lean ====
section
/-! DEFINITION. Which abstract commands a frame can spell: the length fields are u32 (KEYLEN, NONCELEN) and u64 (LEN),
and every value of them is allowed (30_encoding.md R94 to R97, R100). -/

namespace Sys2Proof

/-- The lengths of the byte operands fit their length fields (R94, R95, R96). -/
def Instr.wellFormed : Instr → Bool
  | .init _ _ key nonce _ => decide (key.length < 2 ^ 32) && decide (nonce.length < 2 ^ 32)
  | .updateAad data => decide (data.length < 2 ^ 64)
  | .update data _ => decide (data.length < 2 ^ 64)
  | .finalize data _ => decide (data.length < 2 ^ 64)
  | .getOutputSize _ _ => true

end Sys2Proof
end

