-- ==== Sys2Proof/Decode.lean ====
section
/-! DEFINITION. Little-endian conversions (00_scope.md R17), the decoder, total on any byte sequence, and the encoder
(30_encoding.md R93 to R102). -/

namespace Sys2Proof

/-- The number that bytes spell, least significant first: `le32`, `le64`, `le128` of R17 and G5 at their widths. -/
def leNat : Bytes → Nat
  | [] => 0
  | b :: bs => b.toNat + 256 * leNat bs

/-- The `n` least significant bytes of a number, least significant first. -/
def leBytes : Nat → Nat → Bytes
  | 0, _ => []
  | n + 1, v => BitVec.ofNat 8 v :: leBytes n (v / 256)

/-- `le32` (R17). -/
def le32 (b : Bytes) : Word := BitVec.ofNat 32 (leNat b)

/-- `le64` (R17). -/
def le64 (b : Bytes) : U64 := BitVec.ofNat 64 (leNat b)

/-- `LE32` (R17). -/
def toLE32 (w : Word) : Bytes := leBytes 4 w.toNat

/-- `LE64` (R17). -/
def toLE64 (v : U64) : Bytes := leBytes 8 v.toNat

/-- `MemRead(SPACE, a, n)`: the `n` bytes at offsets `a` to `a + n - 1` of a byte space (R18, R60). -/
def memRead (space : Bytes) (a n : Nat) : Bytes := (space.drop a).take n

/-- The five operation codes (R98). -/
inductive Op where
  | init | updateAad | update | finalize | getOutputSize
deriving DecidableEq, Repr

/-- A row of the opcode map: a frame selects it when `H & mask = pattern` (R98; spec/opcode_table.json). -/
structure OpRow where
  op : Op
  pattern : Word
  mask : Word
deriving DecidableEq, Repr

/-- The opcode map (R98). -/
def opTable : List OpRow :=
  [ ⟨.init, 0x00000001, 0xFFFFFCFF⟩
  , ⟨.updateAad, 0x00000002, 0xFFFFFFFF⟩
  , ⟨.update, 0x00000003, 0xFFFFFFFF⟩
  , ⟨.finalize, 0x00000004, 0xFFFFFFFF⟩
  , ⟨.getOutputSize, 0x00000005, 0xFFFFFEFF⟩ ]

/-- The row that a header word selects (R98). -/
def selectOp (h : Word) : Option Op :=
  (opTable.find? fun r => h &&& r.mask == r.pattern).map OpRow.op

/-- Why a frame is ILLEGAL (R101). -/
inductive Illegal where
  /-- Shorter than the 4 bytes of `H`. -/
  | shorterThanHeader
  /-- `OPC` is none of 0x01 to 0x05. -/
  | reservedOpcode
  /-- A must-be-zero bit of `H` is 1. -/
  | mustBeZeroBit
  /-- Shorter than the fixed part of its format (R100). -/
  | shorterThanFixedPart
  /-- The length is not what its own length fields give (R100). -/
  | lengthLaw
deriving DecidableEq, Repr

/-- The decoder's verdict: an abstract command, or ILLEGAL with its reason (R90). -/
inductive Decoded where
  | instr (i : Instr)
  | illegal (why : Illegal)
deriving DecidableEq, Repr

/-- The header word `H` of a frame (R93). -/
def headerOf (f : Bytes) : Word := le32 (memRead f 0 4)

/-- The fixed part of a format, in bytes (R100). -/
def fixedLen : Op → Nat
  | .init => 16
  | .updateAad => 12
  | .update => 20
  | .finalize => 20
  | .getOutputSize => 12

/-- The total length a frame's own length fields give it (R94 to R97, R100). -/
def frameLen (op : Op) (f : Bytes) : Nat :=
  match op with
  | .init => 16 + leNat (memRead f 4 4) + leNat (memRead f 8 4)
  | .updateAad => 12 + leNat (memRead f 4 8)
  | .update => 20 + leNat (memRead f 4 8)
  | .finalize => 20 + leNat (memRead f 4 8)
  | .getOutputSize => 12

/-- `dir` is ENC when bit A is 0 and DEC when it is 1 (R99). -/
def dirOfBit (a : Bool) : Dir := if a then .dec else .enc

/-- `mode` is STREAM when bit B is 0 and AEAD when it is 1 (R99). -/
def modeOfBit (b : Bool) : Mode := if b then .aead else .stream

/-- The operands of a well-formed frame (R99); `h` is its header, whose bit 8 is A and bit 9 is B (R93). -/
def operandsOf (op : Op) (h : Word) (f : Bytes) : Instr :=
  match op with
  | .init =>
    let keylen := leNat (memRead f 4 4)
    let noncelen := leNat (memRead f 8 4)
    .init (dirOfBit (h.getLsbD 8)) (modeOfBit (h.getLsbD 9)) (memRead f 16 keylen) (memRead f (16 + keylen) noncelen)
      (le32 (memRead f 12 4))
  | .updateAad => .updateAad (memRead f 12 (leNat (memRead f 4 8)))
  | .update => .update (memRead f 20 (leNat (memRead f 4 8))) (le64 (memRead f 12 8))
  | .finalize => .finalize (memRead f 20 (leNat (memRead f 4 8))) (le64 (memRead f 12 8))
  | .getOutputSize => .getOutputSize (le64 (memRead f 4 8)) (h.getLsbD 8)

/-- Does the low byte of a header name one of the five commands? (R98) -/
def opcodeKnown (h : Word) : Bool := decide (1 ≤ (h.extractLsb' 0 8).toNat ∧ (h.extractLsb' 0 8).toNat ≤ 5)

/-- The decoder: total, and independent of any state (R90, R101, R102). -/
def decode (f : Bytes) : Decoded :=
  if f.length < 4 then .illegal .shorterThanHeader
  else match selectOp (headerOf f) with
    | none => .illegal (if opcodeKnown (headerOf f) then .mustBeZeroBit else .reservedOpcode)
    | some op =>
      if f.length < fixedLen op then .illegal .shorterThanFixedPart
      else if f.length ≠ frameLen op f then .illegal .lengthLaw
      else .instr (operandsOf op (headerOf f) f)

/-- The header word with operation code `opc` and the bits A and B (R93). -/
def headerWord (opc : Word) (a b : Bool) : Word :=
  opc ||| (if a then 0x100 else 0) ||| (if b then 0x200 else 0)

/-- The frame that spells a command (R93 to R97). -/
def encode : Instr → Bytes
  | .init dir mode key nonce ictr =>
    toLE32 (headerWord 0x01 (decide (dir = .dec)) (decide (mode = .aead))) ++ leBytes 4 key.length
      ++ leBytes 4 nonce.length ++ toLE32 ictr ++ key ++ nonce
  | .updateAad data => toLE32 (headerWord 0x02 false false) ++ leBytes 8 data.length ++ data
  | .update data outcap =>
    toLE32 (headerWord 0x03 false false) ++ leBytes 8 data.length ++ toLE64 outcap ++ data
  | .finalize data outcap =>
    toLE32 (headerWord 0x04 false false) ++ leBytes 8 data.length ++ toLE64 outcap ++ data
  | .getOutputSize n isfinal => toLE32 (headerWord 0x05 isfinal false) ++ toLE64 n

/-- Bytes followed by as many zeros as bring them to length `n`. -/
def padTo (n : Nat) (f : Bytes) : Bytes := f ++ List.replicate (n - f.length) 0

/-- The frame whose first `nbits` bits are `w` (bit 0 is the least significant bit of the first byte) and whose
remaining bytes, up to the length its own length fields give, are zero. -/
def tableFrame (nbits w : Nat) : Bytes :=
  let f := padTo 4 (leBytes (nbits / 8) w)
  match selectOp (headerOf f) with
  | none => f
  | some op =>
    let g := padTo (fixedLen op) f
    padTo (frameLen op g) g

/-- What the decoder reads from the instruction whose bits are `w`, numbered as spec/opcode_table.json numbers them. -/
def decodeTableWord (nbits w : Nat) : Option Instr :=
  match decode (tableFrame nbits w) with
  | .instr i => some i
  | .illegal _ => none

end Sys2Proof
end

