-- ==== Sys2Proof/Machine/BlockTransform.lean ====
section
/-! DEFINITION. The Block Transform (40_block_transform.md): the quarter-round, the rounds, the block function, and the
start state. -/

namespace Sys2Proof.Machine

open Sys2Proof

/-- The 16 words of a start state or of the working array `x` (10_state.md R21, R23). -/
abbrev Words := Vector Word 16

/-- `rotl32(v, n)` for `1 <= n <= 31` (00_scope.md R16). -/
def rotl32 (v : Word) (n : Nat) : Word := (v <<< n) ||| (v >>> (32 - n))

/-- The four words a quarter-round works on: `x[a], x[b], x[c], x[d]` (R121). -/
structure Quad where
  a : Word
  b : Word
  c : Word
  d : Word
deriving DecidableEq, Repr

/-- The twelve steps of the quarter-round, each on the values the earlier ones wrote (R121). -/
def quarter (q : Quad) : Quad :=
  let a := q.a + q.b
  let d := q.d ^^^ a
  let d := rotl32 d 16
  let c := q.c + d
  let b := q.b ^^^ c
  let b := rotl32 b 12
  let a := a + b
  let d := d ^^^ a
  let d := rotl32 d 8
  let c := c + d
  let b := b ^^^ c
  let b := rotl32 b 7
  ⟨a, b, c, d⟩

/-- `QR(a, b, c, d)` on the working array (R121). It is called with four distinct indices only (R123, R124; log 9). -/
def qr (a b c d : Fin 16) (x : Words) : Words :=
  let q := quarter ⟨x[a], x[b], x[c], x[d]⟩
  (((x.set a q.a).set b q.b).set c q.c).set d q.d

/-- `COLROUND` (R123). -/
def colRound (x : Words) : Words := qr 3 7 11 15 (qr 2 6 10 14 (qr 1 5 9 13 (qr 0 4 8 12 x)))

/-- `DIAGROUND` (R124). -/
def diagRound (x : Words) : Words := qr 3 4 9 14 (qr 2 7 8 13 (qr 1 6 11 12 (qr 0 5 10 15 x)))

/-- `DOUBLEROUND`: the column round, then the diagonal round (R125). -/
def doubleRound (x : Words) : Words := diagRound (colRound x)

/-- `n` double-rounds (R126 step 2). -/
def doubleRounds : Nat → Words → Words
  | 0, x => x
  | n + 1, x => doubleRounds n (doubleRound x)

/-- The original state: the start state with word 12 set to the counter (R126 step 1, 10_state.md R22). -/
def initWords (start : Words) (ctr : Word) : Words := start.set 12 ctr

/-- The 16 output words: the rounds, then the feed-forward of the original state (R126 steps 2 and 3). -/
def blockWords (start : Words) (ctr : Word) : Words :=
  let ini := initWords start ctr
  let x := doubleRounds Config.doubleRounds ini
  Vector.ofFn fun i : Fin 16 => x[i] + ini[i]

/-- Byte `j` of a word, byte 0 the least significant (R127, 20_memory.md R65). -/
def wordByte (w : Word) (j : Nat) : Byte := w.extractLsb' (8 * j) 8

/-- `BLOCK(start, ctr)`: byte `4i + j` is byte `j` of output word `i` (R126, R127). -/
@[irreducible] def block (start : Words) (ctr : Word) : Vector Byte 64 :=
  let out := blockWords start ctr
  Vector.ofFn fun k : Fin 64 => wordByte (out[k.val / 4]'(by omega)) (k.val % 4)

/-- `MKSTART(key, nonce)`: four constants, eight key words, the counter placeholder 0, three nonce words; key and
nonce bytes are loaded little-endian (R120, R23; general knowledge G2: PRESUMED, log 3). -/
@[irreducible] def mkStart (sigma : Vector Word 4) (key : Vector Byte 32) (nonce : Vector Byte 12) : Words :=
  Vector.ofFn fun i : Fin 16 =>
    if h : i.val < 4 then sigma[i.val]
    else if i.val < 12 then le32 (memRead key.toList (4 * (i.val - 4)) 4)
    else if i.val = 12 then 0
    else le32 (memRead nonce.toList (4 * (i.val - 13)) 4)

end Sys2Proof.Machine
end

