-- ==== Sys2Proof/Machine/State.lean ====
section
/-! DEFINITION. The state of one instance (10_state.md), the response (30_encoding.md R104), the two ways the host
reaches the instance, and the state after reset. -/

namespace Sys2Proof.Machine

open Sys2Proof

/-- `PHASE` (10_state.md R25). DOC's Finalized is passed through inside a FINALIZE and is no stored value. -/
inductive Phase where
  | uninit | initialized | aad | data
deriving DecidableEq, Repr

/-- The three engines (00_scope.md R3, R11). -/
inductive Engine where
  | stream | aeadEnc | aeadDec
deriving DecidableEq, Repr

/-- The seven error kinds (60_exceptions.md R230, R231). -/
inductive ErrorKind where
  | invalidKey | nonceReuse | illegalState | counterExhausted | shortBuffer | badTag | overflow
deriving DecidableEq, Repr

/-- A status has exactly eight values: OK and the seven error kinds (R231, 93_implementation_defined.md U10). -/
inductive Status where
  | ok
  | err (kind : ErrorKind)
deriving DecidableEq, Repr

/-- A response: status, 64-bit value and output bytes (30_encoding.md R104). `out` is the byte space OUT (20_memory.md
R60, R62). -/
structure Response where
  status : Status
  value : U64
  out : Bytes
deriving DecidableEq, Repr

/-- What the host does to the instance, one thing at a time: it hands over one whole frame (30_encoding.md R92), or it
raises the reset input between commands (70_reset_and_hazards.md R260, R261). -/
inductive PortEvent where
  | frame (bytes : Bytes)
  | reset
deriving DecidableEq, Repr

/-- DOC's CipherState without KEY and NONCE: `START` and the Keystream Manager's registers (10_state.md R34 to R43,
R49). -/
structure Keystream where
  /-- `START`, 16 words (R34). -/
  start : Vector Word 16
  /-- `CTR0`, 32 bits (R35). -/
  ctr0 : Word
  /-- `CTR`, 32 bits (R36). -/
  ctr : Word
  /-- `BLOCKS`, 33 bits, holds 0 to 2^32 inclusive (R40). -/
  blocks : Fin (Config.maxBlocks + 1)
  /-- `KSBUF`, 64 bytes (R42). -/
  ksbuf : Vector Byte 64
  /-- `OFFSET`, 7 bits, holds 0 to 64 inclusive (R43). -/
  offset : Fin 65
deriving DecidableEq, Repr

/-- `AUTH`: the one-time subkey and everything fed so far (R46). -/
structure Auth where
  key : Vector Byte 32
  msg : Bytes
deriving DecidableEq, Repr

/-- The state of one instance: every register of 10_state.md R53 but the locals of `BLOCK`, then the model's own fields
`cfg`, `draws`, `port` and `responses` (INVENTORY.md, "State"). -/
structure State where
  /-- `PHASE` (R25). -/
  phase : Phase
  /-- `MODE` (R27). -/
  mode : Mode
  /-- `DIR` (R27). -/
  dir : Dir
  /-- `ACLOSED` (R28). -/
  aclosed : Bool
  /-- `KNVALID` (R30). -/
  knvalid : Bool
  /-- `KEY` (R32). -/
  key : Vector Byte 32
  /-- `NONCE` (R33). -/
  nonce : Vector Byte 12
  /-- `START`, `CTR0`, `CTR`, `BLOCKS`, `KSBUF`, `OFFSET` (R34 to R43). -/
  ks : Keystream
  /-- `AADLEN` (R44). -/
  aadlen : U64
  /-- `DATALEN` (R45). -/
  datalen : U64
  /-- `AUTH` (R46). -/
  auth : Auth
  /-- `PEND` (R47). In a session it is within `PENDING_CAP` (`SessionInv.pendFits`); while `PHASE = UNINIT` its length is
  free (DESIGN CHOICE, log 1). -/
  pend : Bytes
  /-- MODEL: SIGMA, MAC, PENDING_CAP (00_scope.md R10, R12, R13; log 3). No step changes it. -/
  cfg : Config.Params
  /-- MODEL: how many times registers have been left unspecified so far (log 1). -/
  draws : Nat
  /-- MODEL: what the host does next, oldest first (log 4). -/
  port : List PortEvent
  /-- MODEL: the responses handed back, newest first (log 4). -/
  responses : List Response
deriving DecidableEq, Repr

/-- Why the machine could stop with a fault. NOBODY raises one and there is no constructor: every error of the spec is
a response and a next state (60_exceptions.md R240), and every command is completed or fails in one step
(70_reset_and_hazards.md R276). Safe: a fault that the spec gives would have to be added here. -/
inductive Fault where
deriving DecidableEq, Repr

/-- Why an instruction has no meaning in this model. -/
inductive Refusal where
  /-- Raised by an arm of `exec` whose instruction has no meaning yet (none at present). Safe: the model stops where
  the hardware goes on. -/
  | notModelled (mnemonic : String)
deriving DecidableEq, Repr

/-- The state after reset (10_state.md R51, R53; 70_reset_and_hazards.md R260): `PHASE = UNINIT` and `KNVALID = 0`.
DESIGN CHOICE (log 2): the spec leaves every other register unspecified; here each is zero (its first value, or
empty). `cfg` holds the spec's defaults (log 3); the host has offered nothing and received nothing (log 4). -/
def State.reset : State where
  phase := .uninit
  mode := .stream
  dir := .enc
  aclosed := false
  knvalid := false
  key := Vector.replicate 32 0
  nonce := Vector.replicate 12 0
  ks := { start := Vector.replicate 16 0, ctr0 := 0, ctr := 0, blocks := 0, ksbuf := Vector.replicate 64 0, offset := 0 }
  aadlen := 0
  datalen := 0
  auth := { key := Vector.replicate 32 0, msg := [] }
  pend := []
  cfg := Config.paramsDefault
  draws := 0
  port := []
  responses := []

end Sys2Proof.Machine
end

