-- ==== Sys2Proof/Machine/Keystream.lean ====
section
/-! DEFINITION. The Keystream Manager and the XOR Combiner (41_keystream_and_xor.md). Both touch the registers of
`Keystream` only (10_state.md R49). -/

namespace Sys2Proof.Machine

open Sys2Proof

/-- `AVAIL`: the keystream bytes the current (key, nonce) can still supply (R141). -/
def avail (k : Keystream) : Nat := (64 - k.offset.val) + 64 * (Config.maxBlocks - k.blocks.val)

/-- Generate the next block if the budget allows one: the exhaustion guard (R142) and the refill of R143. The block
uses the counter value held before the increment (R144). `none` is `CounterExhausted`. -/
def refill (k : Keystream) : Option Keystream :=
  if h : k.blocks.val ≤ Config.maxBlocks - 1 then
    some { k with
      ksbuf := block k.start k.ctr
      offset := 0
      blocks := ⟨k.blocks.val + 1, by simp only [Config.maxBlocks] at h ⊢; omega⟩
      ctr := k.ctr + 1 }
  else none

/-- Advance `OFFSET` by `n`, which stays at or below 64 (R143). -/
def advance (k : Keystream) (n : Nat) : Keystream :=
  { k with offset := ⟨min (k.offset.val + n) 64, by omega⟩ }

/-- The loop of `CONSUME` (R143): refill when the buffer is exhausted, copy `min(n, 64 - OFFSET)` bytes, advance. Every
turn copies at least one byte, so `n` turns are enough: the first argument bounds the turns. `none` is
`CounterExhausted`. -/
def consumeLoop : Nat → Nat → Keystream → Option (Bytes × Keystream)
  | _, 0, k => some ([], k)
  | 0, _ + 1, _ => none
  | fuel + 1, n + 1, k =>
    match (if k.offset.val = 64 then refill k else some k) with
    | none => none
    | some k1 =>
      let m := min (n + 1) (64 - k1.offset.val)
      match consumeLoop fuel (n + 1 - m) (advance k1 m) with
      | none => none
      | some (rest, k2) => some (memRead k1.ksbuf.toList k1.offset.val m ++ rest, k2)

/-- `CONSUME(n)` (R143). -/
def consume (n : Nat) (k : Keystream) : Option (Bytes × Keystream) := consumeLoop n n k

/-- `XORSTREAM(s)`: byte by byte exclusive-or with the next keystream bytes (R148). -/
def xorStream (s : Bytes) (k : Keystream) : Option (Bytes × Keystream) :=
  match consume s.length k with
  | none => none
  | some (ks, k') => some (List.zipWith (fun a b => a ^^^ b) s ks, k')

end Sys2Proof.Machine
end

