-- ==== Sys2Proof/Machine/Poly1305.lean ====
section
/-! DEFINITION. Poly1305, the standard instantiation of the parameter MAC, as 93_implementation_defined.md G5 writes it
out (general knowledge there: PRESUMED, log 3). It is not part of the hardware (00_scope.md R6). -/

namespace Sys2Proof.Machine

open Sys2Proof

/-- `p = 2^130 - 5` (G5). -/
def polyP : Nat := 2 ^ 130 - 5

/-- `r`: the first 16 key bytes, clamped (G5). -/
def polyR (key : Bytes) : Nat := leNat (memRead key 0 16) &&& 0x0ffffffc0ffffffc0ffffffc0fffffff

/-- The accumulator after all chunks of 16 bytes; the last chunk may be shorter (G5). The first argument bounds the
number of chunks. -/
def polyAcc (r : Nat) : Nat → Bytes → Nat → Nat
  | 0, _, acc => acc
  | _ + 1, [], acc => acc
  | fuel + 1, b :: bs, acc =>
    polyAcc r fuel ((b :: bs).drop 16) (((acc + leNat ((b :: bs).take 16 ++ [1])) * r) % polyP)

/-- The tag of a message under a one-time key (G5). -/
@[irreducible] def poly1305 (key : Vector Byte 32) (msg : Bytes) : Vector Byte 16 :=
  let s := leNat (memRead key.toList 16 16)
  let acc := polyAcc (polyR key.toList) msg.length msg 0
  Vector.ofFn fun i : Fin 16 => (leBytes 16 (acc + s)).getD i.val 0

end Sys2Proof.Machine
end

