-- ==== Sys2Proof/Machine/Ops.lean ====
section
/-! DEFINITION. The named operations over the state: the port, the response, the authenticator, the unspecified
registers, and `raise`, the one way an error is taken (60_exceptions.md R240), with the reset input beside it. -/

namespace Sys2Proof.Machine

open Sys2Proof

/-- A byte sequence of the right length as a register; a missing byte would read 0 (no caller passes fewer). -/
def toRegister (n : Nat) (b : Bytes) : Vector Byte n := Vector.ofFn fun i : Fin n => b.getD i.val 0

/-- The code of an error kind (60_exceptions.md R231). -/
def errorCode : ErrorKind → Word
  | .invalidKey => 1
  | .nonceReuse => 2
  | .illegalState => 3
  | .counterExhausted => 4
  | .shortBuffer => 5
  | .badTag => 6
  | .overflow => 7

/-- The code of a status (R231): 0 for success. -/
def statusCode : Status → Word
  | .ok => 0
  | .err e => errorCode e

/-- The bytes of a response: `LE32(status) ++ LE64(value) ++ out` (30_encoding.md R104). -/
def responseBytes (r : Response) : Bytes := toLE32 (statusCode r.status) ++ toLE64 r.value ++ r.out

/-- `respond(status, value, out)`: hand a response to the host (30_encoding.md R104). -/
def respond (status : Status) (value : U64) (out : Bytes) (s : State) : State :=
  { s with responses := ⟨status, value, out⟩ :: s.responses }

/-- FREE VALUE: the Keystream Manager's buffer where the spec leaves it unspecified (10_state.md R42; log 1). -/
@[irreducible] def freeKsbuf (draw : Nat) : Vector Byte 64 := Vector.ofFn fun i : Fin 64 => Config.freeBits (.ksbuf i.val) draw 8

/-- FREE VALUE: `START`, `CTR0`, `CTR`, `BLOCKS`, `KSBUF` and `OFFSET` where the spec leaves them unspecified (R52;
log 1). -/
@[irreducible] def freeKeystream (draw : Nat) : Keystream where
  start := Vector.ofFn fun i : Fin 16 => Config.freeBits (.start i.val) draw 32
  ctr0 := Config.freeBits .ctr0 draw 32
  ctr := Config.freeBits .ctr draw 32
  blocks := Fin.ofNat (Config.maxBlocks + 1) (Config.freeBits .blocks draw 33).toNat
  ksbuf := freeKsbuf draw
  offset := Fin.ofNat 65 (Config.freeBits .offset draw 7).toNat

/-- FREE VALUE: `AUTH` where the spec leaves it unspecified (R46, R52; log 1). -/
@[irreducible] def freeAuth (draw : Nat) : Auth where
  key := Vector.ofFn fun i : Fin 32 => Config.freeBits (.authKey i.val) draw 8
  msg := Config.freeBytes .authMsg draw

/-- Take the session away: `PHASE <- UNINIT`, and every session register of R52 unspecified (R52, R240; log 1).
DESIGN CHOICE (log 1): whether an unspecified `PEND` stays within `PENDING_CAP` is open (R47 bounds its length, U2 and D29
say any value); here it is a free sequence of any length. -/
def invalidate (s : State) : State :=
  { s with
    phase := .uninit
    mode := if Config.freeBits .mode s.draws 1 = 1 then .aead else .stream
    dir := if Config.freeBits .dir s.draws 1 = 1 then .dec else .enc
    aclosed := decide (Config.freeBits .aclosed s.draws 1 = 1)
    ks := freeKeystream s.draws
    aadlen := Config.freeBits .aadlen s.draws 64
    datalen := Config.freeBits .datalen s.draws 64
    auth := freeAuth s.draws
    pend := Config.freeBytes .pend s.draws
    draws := s.draws + 1 }

/-- `raise <Error>` (60_exceptions.md R240): `PHASE <- UNINIT`, `respond(code, 0, empty)`; KEY, NONCE and KNVALID stand,
all other registers become unspecified. -/
def raise (e : ErrorKind) (s : State) : State := respond (.err e) 0 [] (invalidate s)

/-- The reset input (70_reset_and_hazards.md R260): `PHASE <- UNINIT`, `KNVALID <- 0`, every other register
unspecified. -/
def resetInput (s : State) : State :=
  { invalidate s with
    knvalid := false
    key := Vector.ofFn fun i : Fin 32 => Config.freeBits (.key i.val) s.draws 8
    nonce := Vector.ofFn fun i : Fin 12 => Config.freeBits (.nonce i.val) s.draws 8 }

/-- The engine takes the oldest event off its port (30_encoding.md R92). -/
def accept (s : State) : State := { s with port := s.port.drop 1 }

/-- An ILLEGAL frame is executed as a command that raises `IllegalState` (30_encoding.md R101, D6). -/
def illegalFrame (s : State) : State := raise .illegalState s

/-- The parameter MAC that the configuration names (00_scope.md R12). -/
def macOf (a : Config.Authenticator) (key : Vector Byte 32) (msg : Bytes) : Vector Byte 16 :=
  match a with
  | .poly1305 => poly1305 key msg
  | .external id => Config.externalMac id key msg

/-- `AUTH.init(k)` (10_state.md R46). -/
def authInit (k : Vector Byte 32) (s : State) : State := { s with auth := ⟨k, []⟩ }

/-- `AUTH.update(b)` (R46). -/
def authUpdate (b : Bytes) (s : State) : State := { s with auth := ⟨s.auth.key, s.auth.msg ++ b⟩ }

/-- `AUTH.finalize()` (R46): the tag, and `AUTH` left unspecified (93_implementation_defined.md U9; log 1). -/
def authFinalize (s : State) : Vector Byte 16 × State :=
  (macOf s.cfg.mac s.auth.key s.auth.msg, { s with auth := freeAuth s.draws, draws := s.draws + 1 })

end Sys2Proof.Machine
end

