-- ==== Sys2Proof/Machine/Operands.lean ====
section
/-! DEFINITION. What a command computes from its operands and the session before it acts: the engine, the output size,
the capacity and length tests (10_state.md R31; 42_init_and_query.md R161, R171; 43_stream_engine.md R182;
44_aead_encrypt.md R191; 45_aead_decrypt.md R213). -/

namespace Sys2Proof.Machine

open Sys2Proof

/-- `ENGINE(MODE, DIR)` (10_state.md R31). -/
def engineOf (mode : Mode) (dir : Dir) : Engine :=
  match mode, dir with
  | .stream, _ => .stream
  | .aead, .enc => .aeadEnc
  | .aead, .dec => .aeadDec

/-- `zeros(n)` (00_scope.md R17). -/
def zeros (n : Nat) : Bytes := List.replicate n 0

/-- `pad16(n)`: the zero bytes that bring a length to the next multiple of 16 (R17). -/
def pad16 (n : Nat) : Nat := (16 - n % 16) % 16

/-- `GETSIZE(n, isfinal)` (42_init_and_query.md R171), a natural number; `n + PENDLEN - 16` below 0 is 0. -/
def getSize (s : State) (n : Nat) (isfinal : Bool) : Nat :=
  match engineOf s.mode s.dir, isfinal with
  | .stream, _ => n
  | .aeadEnc, false => n
  | .aeadEnc, true => n + 16
  | .aeadDec, false => 0
  | .aeadDec, true => s.pend.length + n - 16

/-- `PROLOGUE(data, outcap, isfinal)`: the two tests every UPDATE and FINALIZE makes first, in this order
(43_stream_engine.md R182). -/
def prologue (data : Bytes) (outcap : U64) (isfinal : Bool) (s : State) : Option ErrorKind :=
  if s.phase = .uninit then some .illegalState
  else if outcap.toNat < getSize s data.length isfinal then some .shortBuffer
  else none

/-- INIT's length check (42_init_and_query.md R161). -/
def initLengthsOk (key nonce : Bytes) : Bool := decide (key.length = 32) && decide (nonce.length = 12)

/-- Would this many more bytes pass the pending buffer's capacity? (45_aead_decrypt.md R213) -/
def passesCapacity (s : State) (n : Nat) : Bool :=
  match s.cfg.pendingCap with
  | none => false
  | some cap => decide (cap < s.pend.length + n)

/-- Would this many more AAD bytes pass `2^64 - 1`? The test is made on natural numbers (44_aead_encrypt.md R191). -/
def aadOverflows (s : State) (n : Nat) : Bool := decide (Config.maxU64 < s.aadlen.toNat + n)

/-- A length as a 64-bit value. -/
def len64 (b : Bytes) : U64 := BitVec.ofNat 64 b.length

end Sys2Proof.Machine
end

