-- ==== Sys2Proof/Machine/Flags.lean ====
section
/-! DEFINITION. The flags and the tests on them: the reuse guard (KNVALID), the one-way closing of the AAD (ACLOSED), and
the tag comparison's single decision (42_init_and_query.md R162; 44_aead_encrypt.md R192; 45_aead_decrypt.md R216). -/

namespace Sys2Proof.Machine

open Sys2Proof

/-- The reuse guard: the offered pair is that of the most recent successful INIT (42_init_and_query.md R162). -/
def nonceReused (key nonce : Bytes) (s : State) : Bool :=
  s.knvalid && decide (key = s.key.toList) && decide (nonce = s.nonce.toList)

/-- `CLOSE_AAD` (44_aead_encrypt.md R192): pad the AAD once and set `ACLOSED`. -/
def closeAad (s : State) : State :=
  if s.aclosed then s
  else { authUpdate (zeros (pad16 s.aadlen.toNat)) s with aclosed := true }

/-- `FINISH_MAC(ctlen)` (44_aead_encrypt.md R195): the ciphertext padding, the two lengths, the tag. -/
def finishMac (ctlen : Nat) (s : State) : Vector Byte 16 × State :=
  authFinalize (authUpdate (toLE64 s.aadlen ++ toLE64 (BitVec.ofNat 64 ctlen)) (authUpdate (zeros (pad16 ctlen)) s))

/-- `d` of the tag comparison: the two 8-byte words exclusive-or-ed and or-ed (45_aead_decrypt.md R216). -/
def tagDiff (c p : Bytes) : U64 :=
  (le64 (memRead c 0 8) ^^^ le64 (memRead p 0 8)) ||| (le64 (memRead c 8 8) ^^^ le64 (memRead p 8 8))

/-- `TAGEQ(c, p)`: one decision on the combined value (R216). -/
def tagEq (c p : Bytes) : Bool := decide (tagDiff c p = 0)

end Sys2Proof.Machine
end

