-- ==== Sys2Proof/Machine/AeadDecrypt.lean ====
section
/-! DEFINITION. The AEAD Decrypt Engine (45_aead_decrypt.md). -/

namespace Sys2Proof.Machine

open Sys2Proof

/-- `AEADDEC_UPDATE(data)`: buffer, never decrypt (R212, R213). -/
def aeadDecUpdate (data : Bytes) (s : State) : State :=
  if passesCapacity s data.length then raise .overflow s
  else
    let t := closeAad s
    respond .ok 0 [] { t with pend := t.pend ++ data, phase := .data }

/-- `AEADDEC_FINALIZE(data)` (R214): the last 16 bytes of everything received are the presented tag (R215); no
keystream is used and no output made before the tags are found equal (R217). -/
def aeadDecFinalize (data : Bytes) (s : State) : State :=
  let t := closeAad s
  let buf := t.pend ++ data
  if buf.length < 16 then raise .badTag t
  else
    let ct := memRead buf 0 (buf.length - 16)
    let ptag := memRead buf (buf.length - 16) 16
    let f := finishMac ct.length (authUpdate ct t)
    if !tagEq f.1.toList ptag then raise .badTag f.2
    else if avail f.2.ks < ct.length then raise .counterExhausted f.2
    else match xorStream ct f.2.ks with
      | none => raise .counterExhausted f.2
      | some (pt, k) =>
        respond .ok (len64 ct) pt { f.2 with ks := k, aadlen := 0, datalen := 0, pend := [], phase := .uninit }

end Sys2Proof.Machine
end

