-- ==== Sys2Proof/Machine/AeadEncrypt.lean ====
section
/-! DEFINITION. UPDATE_AAD and the AEAD Encrypt Engine (44_aead_encrypt.md). -/

namespace Sys2Proof.Machine

open Sys2Proof

/-- UPDATE_AAD (R190). -/
def execUpdateAad (data : Bytes) (s : State) : Host.Outcome State Fault Refusal :=
  if s.phase = .uninit then .next (raise .illegalState s)
  else if s.mode ≠ .aead then .next (raise .illegalState s)
  else if s.phase = .data then .next (raise .illegalState s)
  else if aadOverflows s data.length then .next (raise .overflow s)
  else .next (respond .ok 0 [] { authUpdate data s with aadlen := s.aadlen + len64 data, phase := .aad })

/-- Encrypt `data`, feed the ciphertext to the authenticator and count it: steps 3 to 5 of R193, step 3 of R194.
`none` is `CounterExhausted`. -/
def encryptAndFeed (data : Bytes) (s : State) : Option (Bytes × State) :=
  match xorStream data s.ks with
  | none => none
  | some (ct, k) => some (ct, { authUpdate ct s with ks := k, datalen := s.datalen + len64 data })

/-- `AEADENC_UPDATE(data)` (R193). -/
def aeadEncUpdate (data : Bytes) (s : State) : State :=
  if avail s.ks < data.length then raise .counterExhausted s
  else match encryptAndFeed data (closeAad s) with
    | none => raise .counterExhausted s
    | some (ct, t) => respond .ok (len64 data) ct { t with phase := .data }

/-- `AEADENC_FINALIZE(data)` (R194): the tag follows the last ciphertext byte (R196). -/
def aeadEncFinalize (data : Bytes) (s : State) : State :=
  if avail s.ks < data.length then raise .counterExhausted s
  else match encryptAndFeed data (closeAad s) with
    | none => raise .counterExhausted s
    | some (ct, t) =>
      let f := finishMac t.datalen.toNat t
      respond .ok (BitVec.ofNat 64 (data.length + 16)) (ct ++ f.1.toList)
        { f.2 with aadlen := 0, datalen := 0, phase := .uninit }

end Sys2Proof.Machine
end

