-- ==== Sys2Proof/Machine/Stream.lean ====
section
/-! DEFINITION. The Stream Engine (43_stream_engine.md R183, R184). -/

namespace Sys2Proof.Machine

open Sys2Proof

/-- `STREAM_UPDATE(data)` (R183). -/
def streamUpdate (data : Bytes) (s : State) : State :=
  if avail s.ks < data.length then raise .counterExhausted s
  else match xorStream data s.ks with
    | none => raise .counterExhausted s
    | some (out, k) => respond .ok (len64 data) out { s with ks := k, phase := .data }

/-- `STREAM_FINALIZE(data)`: as UPDATE, but the session ends (R184). -/
def streamFinalize (data : Bytes) (s : State) : State :=
  if avail s.ks < data.length then raise .counterExhausted s
  else match xorStream data s.ks with
    | none => raise .counterExhausted s
    | some (out, k) => respond .ok (len64 data) out { s with ks := k, phase := .uninit }

end Sys2Proof.Machine
end

