-- ==== Sys2Proof/Machine/DataCommands.lean ====
section
/-! DEFINITION. UPDATE and FINALIZE: one encoding each, three behaviours, chosen by MODE and DIR (43_stream_engine.md
R180, R181). -/

namespace Sys2Proof.Machine

open Sys2Proof

/-- UPDATE (R180). -/
def execUpdate (data : Bytes) (outcap : U64) (s : State) : Host.Outcome State Fault Refusal :=
  match prologue data outcap false s with
  | some e => .next (raise e s)
  | none =>
    match engineOf s.mode s.dir with
    | .stream => .next (streamUpdate data s)
    | .aeadEnc => .next (aeadEncUpdate data s)
    | .aeadDec => .next (aeadDecUpdate data s)

/-- FINALIZE (R181). -/
def execFinalize (data : Bytes) (outcap : U64) (s : State) : Host.Outcome State Fault Refusal :=
  match prologue data outcap true s with
  | some e => .next (raise e s)
  | none =>
    match engineOf s.mode s.dir with
    | .stream => .next (streamFinalize data s)
    | .aeadEnc => .next (aeadEncFinalize data s)
    | .aeadDec => .next (aeadDecFinalize data s)

end Sys2Proof.Machine
end

