-- ==== Sys2Proof/Machine/InitQuery.lean ====
section
/-! DEFINITION. INIT and GET_OUTPUT_SIZE (42_init_and_query.md). -/

namespace Sys2Proof.Machine

open Sys2Proof

/-- INIT step 3: KEY, NONCE, KNVALID, MODE, DIR, START, `OFFSET <- 64` (R160). The contents of KSBUF are unspecified
after INIT: a free value (10_state.md R42; log 1). -/
def initCommon (dir : Dir) (mode : Mode) (key nonce : Bytes) (s : State) : State :=
  let k := toRegister 32 key
  let n := toRegister 12 nonce
  { s with
    key := k
    nonce := n
    knvalid := true
    mode := mode
    dir := dir
    ks := { s.ks with start := mkStart s.cfg.sigma k n, ksbuf := freeKsbuf s.draws, offset := 64 }
    draws := s.draws + 1 }

/-- INIT step 4 in mode PlainStream (R163): `CTR0 <- ictr; BLOCKS <- 0; CTR <- ictr`. -/
def initStream (ictr : Word) (s : State) : State :=
  { s with ks := { s.ks with ctr0 := ictr, blocks := 0, ctr := ictr } }

/-- The one-time subkey: the first 32 bytes of the block with counter 0 (R164, R165; general knowledge G3: PRESUMED,
log 3). -/
def subkeyOf (start : Words) : Vector Byte 32 := toRegister 32 (memRead (block start 0).toList 0 32)

/-- INIT step 4 in mode AEAD (R164): the subkey initialises the authenticator; the subkey's block counts as one block
of the budget; the operand `ictr` is ignored. -/
def initAead (s : State) : State :=
  { authInit (subkeyOf s.ks.start) s with
    ks := { s.ks with ctr0 := 0, blocks := 1, ctr := 1 }
    aadlen := 0
    datalen := 0
    aclosed := false
    pend := [] }

/-- INIT (R160). It is accepted in every phase (R166). -/
def execInit (dir : Dir) (mode : Mode) (key nonce : Bytes) (ictr : Word) (s : State) :
    Host.Outcome State Fault Refusal :=
  if !initLengthsOk key nonce then .next (raise .invalidKey s)
  else if nonceReused key nonce s then .next (raise .nonceReuse s)
  else
    let s1 := initCommon dir mode key nonce s
    let s2 := match mode with
      | .stream => initStream ictr s1
      | .aead => initAead s1
    .next (respond .ok 0 [] { s2 with phase := .initialized })

/-- GET_OUTPUT_SIZE (R170). -/
def execGetOutputSize (n : U64) (isfinal : Bool) (s : State) : Host.Outcome State Fault Refusal :=
  if s.phase = .uninit then .next (raise .illegalState s)
  else
    let v := getSize s n.toNat isfinal
    if Config.maxU64 < v then .next (raise .overflow s)
    else .next (respond .ok (BitVec.ofNat 64 v) [] s)

end Sys2Proof.Machine
end

