-- ==== Sys2Proof/Machine/Dispatch.lean ====
section
/-! DEFINITION. One arm per command (opcode map, 30_encoding.md R98). -/

namespace Sys2Proof.Machine

open Sys2Proof

def exec (i : Instr) (s : State) : Host.Outcome State Fault Refusal :=
  match i with
  | .init dir mode key nonce ictr => Sys2Proof.Machine.execInit dir mode key nonce ictr s
  | .updateAad data => Sys2Proof.Machine.execUpdateAad data s
  | .update data outcap => Sys2Proof.Machine.execUpdate data outcap s
  | .finalize data outcap => Sys2Proof.Machine.execFinalize data outcap s
  | .getOutputSize n isfinal => Sys2Proof.Machine.execGetOutputSize n isfinal s

end Sys2Proof.Machine
end

