-- ==== Sys2Proof/Machine/Step.lean ====
section
/-! DEFINITION. One step: the engine takes the oldest thing the host did and completes it (20_memory.md R70, R71). -/

namespace Sys2Proof.Machine

open Sys2Proof

/-- Run one frame whose event has been taken off the port: the command it spells, or `IllegalState` where it spells
none (30_encoding.md R90, R101). -/
def runFrame (f : Bytes) (s : State) : Host.Outcome State Fault Refusal :=
  match decode f with
  | .instr i => exec i s
  | .illegal _ => .next (illegalFrame s)

/-- One step. With nothing on the port the engine waits and nothing changes (70_reset_and_hazards.md R260,
60_exceptions.md R244; log 6). -/
def step (s : State) : Host.Outcome State Fault Refusal :=
  match s.port with
  | [] => .next s
  | .reset :: _ => .next (resetInput (accept s))
  | .frame f :: _ => runFrame f (accept s)

/-- The state with the frame of an opcode-table word at the head of the port, so that the very next step runs it
(log 4). -/
def State.withFetchWord (s : State) (nbits w : Nat) : State :=
  { s with port := .frame (tableFrame nbits w) :: s.port }

end Sys2Proof.Machine
end

