-- ==== Sys2Proof/Safety.lean ====
section
/-! DEFINITION. What counts as a safe run: the invariant of every reachable state, and the words the statements use (the
keystream position of 20_memory.md R69, the authenticator input of 44_aead_encrypt.md R197, runs of commands). -/

namespace Sys2Proof.Machine

open Sys2Proof

/-- `B0`: the value `BLOCKS` has right after INIT (20_memory.md R69; 10_state.md R40). -/
def firstBlocks : Mode → Nat
  | .stream => 0
  | .aead => 1

/-- `FIRST`: the counter of the session's first data block (R69). -/
def firstCounter (s : State) : Word :=
  match s.mode with
  | .stream => s.ks.ctr0
  | .aead => 1

/-- `P`: how many keystream bytes have been handed out since INIT, `64 * (BLOCKS - B0) - (64 - OFFSET)` (R69). -/
def keystreamPos (s : State) : Nat :=
  64 * (s.ks.blocks.val - firstBlocks s.mode) - (64 - s.ks.offset.val)

/-- The keystream byte at position `p`: `BLOCK(START, (FIRST + p div 64) mod 2^32)[p mod 64]` (R69). -/
def keystreamByte (start : Words) (first : Word) (p : Nat) : Byte :=
  (block start (first + BitVec.ofNat 32 (p / 64)))[p % 64]'(by omega)

/-- Data exclusive-or-ed with the keystream bytes from position `p` on (R69, 41_keystream_and_xor.md R148). -/
def xorAt (start : Words) (first : Word) (p : Nat) (data : Bytes) : Bytes :=
  data.mapIdx fun i b => b ^^^ keystreamByte start first (p + i)

/-- The padding that `CLOSE_AAD` feeds in this state: none when the AAD is closed already (44_aead_encrypt.md R192). -/
def closingPad (s : State) : Bytes := if s.aclosed then [] else zeros (pad16 s.aadlen.toNat)

/-- The authenticator input of a whole session with AAD `a` and ciphertext `c` (44_aead_encrypt.md R197). -/
def macInput (a c : Bytes) : Bytes :=
  a ++ zeros (pad16 a.length) ++ c ++ zeros (pad16 c.length) ++ toLE64 (len64 a) ++ toLE64 (len64 c)

/-- The end of the authenticator input, for `n` ciphertext bytes: their padding and the two lengths
(44_aead_encrypt.md R195). -/
def macEnd (aadlen : U64) (n : Nat) : Bytes := zeros (pad16 n) ++ toLE64 aadlen ++ toLE64 (BitVec.ofNat 64 n)

/-- Everything received as data by a FINALIZE of engine AEAD_DEC: the pending ciphertext and its own data
(45_aead_decrypt.md R214, R215). -/
def received (s : State) (data : Bytes) : Bytes := s.pend ++ data

/-- The ciphertext part: all but the last 16 bytes (R215). -/
def receivedCt (s : State) (data : Bytes) : Bytes := (received s data).take ((received s data).length - 16)

/-- The presented tag: the last 16 bytes (R215). -/
def receivedTag (s : State) (data : Bytes) : Bytes := (received s data).drop ((received s data).length - 16)

/-- The tag that a FINALIZE of engine AEAD_DEC computes (45_aead_decrypt.md R214, R218). -/
def computedTag (s : State) (data : Bytes) : Vector Byte 16 :=
  macOf s.cfg.mac s.auth.key
    (s.auth.msg ++ closingPad s ++ receivedCt s data ++ macEnd s.aadlen (receivedCt s data).length)

/-- Run commands one after the other (20_memory.md R71). -/
def execAll : List Instr → State → Host.Outcome State Fault Refusal
  | [], s => .next s
  | i :: is, s =>
    match exec i s with
    | .next t => execAll is t
    | .fault r => .fault r
    | .refused r => .refused r

/-- The responses to the last `n` commands, oldest first. -/
def lastResponses (n : Nat) (s : State) : List Response := (s.responses.take n).reverse

/-- The commands of one AEAD session: INIT, an UPDATE_AAD for each piece of AAD, an UPDATE for each piece of data, a
FINALIZE with the last piece (70_reset_and_hazards.md R262). -/
def aeadSession (dir : Dir) (key nonce : Bytes) (ictr : Word) (aads datas : List Bytes) (last : Bytes) (cap : U64) :
    List Instr :=
  .init dir .aead key nonce ictr :: (aads.map .updateAad ++ (datas.map (fun d => .update d cap) ++ [.finalize last cap]))

/-- How many commands `aeadSession` has. -/
def sessionLength (aads datas : List Bytes) : Nat := aads.length + datas.length + 2

/-- The start state of a (key, nonce) pair (40_block_transform.md R120). -/
def startOf (sigma : Vector Word 4) (key nonce : Bytes) : Words :=
  mkStart sigma (toRegister 32 key) (toRegister 12 nonce)

/-- The offered pair has the right lengths and is not the recorded one: what INIT tests (42_init_and_query.md R161,
R162). -/
def initAccepted (key nonce : Bytes) (s : State) : Prop :=
  key.length = 32 ∧ nonce.length = 12 ∧ ¬(s.knvalid = true ∧ key = s.key.toList ∧ nonce = s.nonce.toList)

/-- The output bytes of the last `n` commands, concatenated in order. -/
def lastOutput (n : Nat) (s : State) : Bytes := ((lastResponses n s).map Response.out).flatten

/-- The phase after a command that completes with status OK, `none` where it can't be ok: the table of 10_state.md
R26. -/
def phaseAfterOk (i : Instr) (s : State) : Option Phase :=
  match i with
  | .init _ _ _ _ _ => some .initialized
  | .updateAad _ => if s.phase = .uninit ∨ s.phase = .data ∨ s.mode = .stream then none else some .aad
  | .update _ _ => if s.phase = .uninit then none else some .data
  | .finalize _ _ => if s.phase = .uninit then none else some .uninit
  | .getOutputSize _ _ => if s.phase = .uninit then none else some s.phase

/-- The status a command reports: the first test that fails, in the order of the table of 60_exceptions.md R245. -/
def statusOf (i : Instr) (s : State) : Status :=
  match i with
  | .init _ _ key nonce _ =>
    if key.length ≠ 32 ∨ nonce.length ≠ 12 then .err .invalidKey
    else if s.knvalid = true ∧ key = s.key.toList ∧ nonce = s.nonce.toList then .err .nonceReuse
    else .ok
  | .updateAad data =>
    if s.phase = .uninit ∨ s.mode ≠ .aead ∨ s.phase = .data then .err .illegalState
    else if Config.maxU64 < s.aadlen.toNat + data.length then .err .overflow
    else .ok
  | .update data outcap =>
    if s.phase = .uninit then .err .illegalState
    else match engineOf s.mode s.dir with
      | .aeadDec =>
        match s.cfg.pendingCap with
        | none => .ok
        | some cap => if cap < s.pend.length + data.length then .err .overflow else .ok
      | .stream | .aeadEnc =>
        if outcap.toNat < data.length then .err .shortBuffer
        else if avail s.ks < data.length then .err .counterExhausted
        else .ok
  | .finalize data outcap =>
    if s.phase = .uninit then .err .illegalState
    else match engineOf s.mode s.dir with
      | .stream =>
        if outcap.toNat < data.length then .err .shortBuffer
        else if avail s.ks < data.length then .err .counterExhausted
        else .ok
      | .aeadEnc =>
        if outcap.toNat < data.length + 16 then .err .shortBuffer
        else if avail s.ks < data.length then .err .counterExhausted
        else .ok
      | .aeadDec =>
        if outcap.toNat < s.pend.length + data.length - 16 then .err .shortBuffer
        else if (received s data).length < 16 then .err .badTag
        else if (computedTag s data).toList ≠ receivedTag s data then .err .badTag
        else if avail s.ks < (receivedCt s data).length then .err .counterExhausted
        else .ok
  | .getOutputSize n isfinal =>
    if s.phase = .uninit then .err .illegalState
    else if Config.maxU64 < getSize s n.toNat isfinal then .err .overflow
    else .ok

/-- The invariant of a session (`PHASE` other than `UNINIT`). -/
structure SessionInv (s : State) : Prop where
  /-- `KNVALID` is set by every successful INIT and cleared only by reset (10_state.md R30). -/
  pairRecorded : s.knvalid = true
  /-- `START` is the start state of the recorded pair (10_state.md R34). -/
  startOfPair : s.ks.start = mkStart s.cfg.sigma s.key s.nonce
  /-- `CTR = (CTR0 + BLOCKS) mod 2^32` (10_state.md R41). -/
  counterLaw : s.ks.ctr = s.ks.ctr0 + BitVec.ofNat 32 s.ks.blocks.val
  /-- A buffer that is not exhausted holds the most recent data block (10_state.md R42, 41_keystream_and_xor.md R144). -/
  bufferIsLastBlock : s.ks.offset.val < 64 →
    firstBlocks s.mode < s.ks.blocks.val ∧ s.ks.ksbuf = block s.ks.start (s.ks.ctr - 1)
  /-- `PHASE = AAD` is never reached in mode PlainStream (10_state.md R26). -/
  aadPhaseIsAead : s.phase = .aad → s.mode = .aead
  /-- In mode AEAD, `ACLOSED = 1` exactly when `PHASE = DATA` (10_state.md R29). -/
  closedIffData : s.mode = .aead → (s.aclosed = true ↔ s.phase = .data)
  /-- In mode AEAD the base counter is 0 and the subkey's block is counted (10_state.md R35, R40). -/
  aeadBase : s.mode = .aead → s.ks.ctr0 = 0 ∧ 1 ≤ s.ks.blocks.val
  /-- In mode AEAD the authenticator's key is the one-time subkey of the start state (42_init_and_query.md R165). -/
  authKeyIsSubkey : s.mode = .aead → s.auth.key = subkeyOf s.ks.start
  /-- Before the data phase of mode AEAD, exactly the AAD has been fed and no data block generated (R44, R46). -/
  beforeData : s.mode = .aead → s.phase ≠ .data →
    s.auth.msg.length = s.aadlen.toNat ∧ s.datalen = 0 ∧ s.ks.blocks.val = 1 ∧ s.ks.offset.val = 64
  /-- In engine AEAD_ENC, `DATALEN` is the number of keystream bytes consumed (44_aead_encrypt.md R198). -/
  encDatalen : engineOf s.mode s.dir = .aeadEnc →
    s.datalen.toNat + (64 - s.ks.offset.val) = 64 * (s.ks.blocks.val - 1)
  /-- In engine AEAD_DEC no keystream is consumed and `DATALEN` stays 0 before FINALIZE (20_memory.md R74, R45). -/
  decIdle : engineOf s.mode s.dir = .aeadDec → s.datalen = 0 ∧ s.ks.blocks.val = 1 ∧ s.ks.offset.val = 64
  /-- `PEND` is within its capacity (10_state.md R47). -/
  pendFits : engineOf s.mode s.dir = .aeadDec → ∀ cap, s.cfg.pendingCap = some cap → s.pend.length ≤ cap

/-- The invariant of every reachable state: a session is as `SessionInv` says; while `PHASE = UNINIT` every value is
allowed (10_state.md R52). -/
def Inv (s : State) : Prop := s.phase ≠ .uninit → SessionInv s

end Sys2Proof.Machine
end

