-- ==== Sys2Proof/Certificates/Slice0/Obligations.lean ====
section
/-! DEFINITION. The statements for the provers, from the numbered rules of spec/. A state that no run reaches is ruled
out by the premise `SessionInv s` where a statement needs it; `InvKeptByEveryStep` states that every step keeps it. The
port and the list of responses are fields of the MODEL (log 4): "the response is r" reads `t.responses = r :: s.responses`. -/

open Sys2Proof Sys2Proof.Machine

/-! ## Encoding (30_encoding.md) -/

/-- Decoding the frame of a well-formed command gives the command back, every operand at every value (R93 to R100). -/
def Obligations.DecodeOfEncode : Prop :=
  ∀ i : Instr, i.wellFormed = true → decode (encode i) = .instr i

/-- A frame that decodes to a command is the one frame that spells it, and the command is well-formed: nothing outside
the fields is ignored (R99, R100, R101). -/
def Obligations.EncodeOfDecode : Prop :=
  ∀ (f : Bytes) (i : Instr), decode f = .instr i → i.wellFormed = true ∧ encode i = f

/-- No header word selects two rows of the opcode map (R98). -/
def Obligations.OpcodeRowsDisjoint : Prop :=
  ∀ (h : Word) (r q : OpRow), r ∈ opTable → q ∈ opTable → h &&& r.mask = r.pattern → h &&& q.mask = q.pattern → r = q

/-- R101: exactly which frames are ILLEGAL, and that the engine treats one as a command that raises `IllegalState`: a
response with no output, and the instance invalidated. -/
def Obligations.IllegalFrames : Prop :=
  (∀ f : Bytes, (∃ why, decode f = .illegal why) ↔
    let opc := ((headerOf f).extractLsb' 0 8).toNat
    f.length < 4 ∨ ¬(1 ≤ opc ∧ opc ≤ 5) ∨ (headerOf f).extractLsb' 10 22 ≠ 0 ∨
    ((headerOf f).getLsbD 9 = true ∧ opc ≠ 1) ∨ ((headerOf f).getLsbD 8 = true ∧ (opc = 2 ∨ opc = 3 ∨ opc = 4)) ∨
    ¬((opc = 1 ∧ 16 ≤ f.length ∧ f.length = 16 + leNat (memRead f 4 4) + leNat (memRead f 8 4)) ∨
      (opc = 2 ∧ 12 ≤ f.length ∧ f.length = 12 + leNat (memRead f 4 8)) ∨
      ((opc = 3 ∨ opc = 4) ∧ 20 ≤ f.length ∧ f.length = 20 + leNat (memRead f 4 8)) ∨
      (opc = 5 ∧ f.length = 12))) ∧
  (∀ (s : State) (f : Bytes) (rest : List PortEvent) (why : Illegal),
    s.port = .frame f :: rest → decode f = .illegal why →
    ∃ t, step s = .next t ∧ t.phase = .uninit ∧ t.port = rest ∧
      t.responses = ⟨.err .illegalState, 0, []⟩ :: s.responses)

/-- A few frames of R108 and of 95_test_vectors.md V19, written out byte by byte, decode to the commands they stand for. -/
def Obligations.WorkedFramesDecode : Prop :=
  decode [0x05, 0x01, 0, 0, 0x64, 0, 0, 0, 0, 0, 0, 0] = .instr (.getOutputSize 100 true) ∧
  decode [0x02, 0, 0, 0, 4, 0, 0, 0, 0, 0, 0, 0, 0x50, 0x51, 0x52, 0x53] = .instr (.updateAad [0x50, 0x51, 0x52, 0x53]) ∧
  decode [0x03, 0, 0, 0, 2, 0, 0, 0, 0, 0, 0, 0, 2, 0, 0, 0, 0, 0, 0, 0, 0xaa, 0xbb] =
    .instr (.update [0xaa, 0xbb] 2) ∧
  decode [0x04, 0, 0, 0, 0, 0, 0, 0, 0, 0, 0, 0, 0xff, 0xff, 0xff, 0xff, 0xff, 0xff, 0xff, 0xff] =
    .instr (.finalize [] 0xffffffffffffffff) ∧
  decode [0x01, 0x03, 0, 0, 1, 0, 0, 0, 2, 0, 0, 0, 7, 0, 0, 0, 0xaa, 0xbb, 0xcc] =
    .instr (.init .dec .aead [0xaa] [0xbb, 0xcc] 7)

/-! ## The step (20_memory.md R70, R71; 70_reset_and_hazards.md R260) -/

/-- When the frame at the head of the port decodes to a command, a step is that command's meaning on the state whose
port no longer holds the frame. -/
def Obligations.StepRunsDecodedCommand : Prop :=
  ∀ (s : State) (f : Bytes) (rest : List PortEvent) (i : Instr),
    s.port = .frame f :: rest → decode f = .instr i → step s = exec i { s with port := rest }

/-- With nothing on the port the engine waits and nothing changes (MODEL's choice, log 6; R260, R244). -/
def Obligations.StepWaitsForACommand : Prop :=
  ∀ s : State, s.port = [] → step s = .next s

/-- R260: the reset input sets `PHASE <- UNINIT` and `KNVALID <- 0`, whatever the state; the first INIT after it can
never fail `NonceReuse`, and every other command after it fails `IllegalState`. Two clauses are the MODEL's choice and no
rule's: that the reset input gives no response, `t.responses = s.responses` (DESIGN CHOICE, log 4), and that it keeps the
configuration, a field of the model, `t.cfg = s.cfg` (log 3). The port, taken by one event, is the model's too (log 4). -/
def Obligations.ResetInputForgetsThePair : Prop :=
  ∀ (s : State) (rest : List PortEvent), s.port = .reset :: rest →
    ∃ t, step s = .next t ∧ t.phase = .uninit ∧ t.knvalid = false ∧ t.port = rest ∧ t.cfg = s.cfg ∧
      t.responses = s.responses ∧
      ∀ i : Instr, ∃ u r, exec i t = .next u ∧ u.responses = r :: t.responses ∧ r.status ≠ .err .nonceReuse ∧
        ((∃ dir mode key nonce ictr, i = .init dir mode key nonce ictr) ∨ r.status = .err .illegalState)

/-- The state after reset: `PHASE = UNINIT` and `KNVALID = 0` (R51, R53, R260). -/
def Obligations.ResetIsUninitialized : Prop :=
  State.reset.phase = .uninit ∧ State.reset.knvalid = false

/-- Every step answers a next state: the machine neither faults nor refuses (R240, R276; INVENTORY.md "Faults"). -/
def Obligations.EveryStepAnswersNext : Prop :=
  ∀ s : State, ∃ t, step s = .next t

/-- No step changes the configuration, and a step takes at most the oldest event off the port. Both are fields of the
MODEL (logs 3 and 4); the spec fixes the parameters for an instance (R14) and hands over one frame at a time (R92). -/
def Obligations.ConfigurationIsFixed : Prop :=
  ∀ s t : State, step s = .next t → t.cfg = s.cfg ∧ t.port = s.port.drop 1

/-! ## The invariant -/

/-- The invariant holds after reset. -/
def Obligations.InvHoldsAtReset : Prop := Inv State.reset

/-- Every step keeps the invariant: the counter law R41, the buffer law R42, ACLOSED exactly in the data phase R29, the
start state of the recorded pair R34, the subkey R165, `DATALEN` the keystream consumed R198, no keystream consumed by an
open decrypting session R74, `PEND` within its capacity R47, and the rest of `SessionInv`. -/
def Obligations.InvKeptByEveryStep : Prop :=
  ∀ s t : State, Inv s → step s = .next t → Inv t

/-! ## Whole-machine rules -/

/-- R26: the phase transition table, for every command in every state. -/
def Obligations.PhaseTransitions : Prop :=
  ∀ (i : Instr) (s : State), ∃ t r, exec i s = .next t ∧ t.responses = r :: s.responses ∧
    (r.status = .ok → phaseAfterOk i s = some t.phase) ∧
    (r.status ≠ .ok → t.phase = .uninit) ∧
    (phaseAfterOk i s = none → r.status = .err .illegalState) ∧
    ((s.phase = .aad → s.mode = .aead) → t.phase = .aad → t.mode = .aead)

/-- R243: the only way out of `PHASE = UNINIT` is a successful INIT, with a pair that differs from the recorded one; a
command that fails in `UNINIT` fails with `IllegalState`, or, for INIT, `InvalidKey` or `NonceReuse`, and the phase stays
`UNINIT`. -/
def Obligations.OnlyInitLeavesUninit : Prop :=
  ∀ (i : Instr) (s : State), s.phase = .uninit → ∃ t r, exec i s = .next t ∧ t.responses = r :: s.responses ∧
    ((∃ dir mode key nonce ictr, i = .init dir mode key nonce ictr ∧ initAccepted key nonce s ∧ r.status = .ok ∧
        t.phase = .initialized) ∨
     (∃ dir mode key nonce ictr, i = .init dir mode key nonce ictr ∧
        (r.status = .err .invalidKey ∨ r.status = .err .nonceReuse) ∧ t.phase = .uninit) ∨
     ((∀ dir mode key nonce ictr, i ≠ .init dir mode key nonce ictr) ∧ r.status = .err .illegalState ∧
        t.phase = .uninit))

/-- R240: a command that raises sets `PHASE <- UNINIT`, responds `(code, 0, empty)`, and leaves KEY, NONCE and KNVALID
as they were; the response is the 12 bytes `LE32(code) ++ LE64(0)` with a code from 1 to 7 (R104, R231). -/
def Obligations.RaiseInvalidates : Prop :=
  ∀ (i : Instr) (s : State), statusOf i s ≠ .ok → ∃ t r, exec i s = .next t ∧ t.responses = r :: s.responses ∧
    r.status = statusOf i s ∧ r.value = 0 ∧ r.out = [] ∧
    responseBytes r = toLE32 (statusCode r.status) ++ List.replicate 8 0 ∧
    1 ≤ (statusCode r.status).toNat ∧ (statusCode r.status).toNat ≤ 7 ∧
    t.phase = .uninit ∧ t.key = s.key ∧ t.nonce = s.nonce ∧ t.knvalid = s.knvalid ∧ t.cfg = s.cfg ∧ t.port = s.port

/-- R245: which error a command reports when several apply: the first in the order its rule tests them. `statusOf` is
that table; in the decrypt engine's FINALIZE the comparison is equality of the computed and the presented tag. An
ILLEGAL frame reports `IllegalState` whatever else holds. -/
def Obligations.ErrorPriority : Prop :=
  (∀ (i : Instr) (s : State), ∃ t r, exec i s = .next t ∧ t.responses = r :: s.responses ∧ r.status = statusOf i s) ∧
  (∀ (s : State) (f : Bytes) (rest : List PortEvent) (why : Illegal), s.port = .frame f :: rest →
    decode f = .illegal why → ∃ t r, step s = .next t ∧ t.responses = r :: s.responses ∧ r.status = .err .illegalState)

/-- R104: every command ends with exactly one response; its `VALUE` is the number of output bytes for UPDATE and
FINALIZE, the size asked for by GET_OUTPUT_SIZE, and 0 for INIT, UPDATE_AAD and every failing command; output bytes come
only from a successful UPDATE or FINALIZE; the response is `LE32(status) ++ LE64(value) ++ out`. -/
def Obligations.ResponseFields : Prop :=
  ∀ (i : Instr) (s : State), ∃ t r, exec i s = .next t ∧ t.responses = r :: s.responses ∧
    responseBytes r = toLE32 (statusCode r.status) ++ toLE64 r.value ++ r.out ∧
    (responseBytes r).length = 12 + r.out.length ∧
    (r.status ≠ .ok → r.value = 0 ∧ r.out = []) ∧
    (r.status = .ok →
      match i with
      | .init _ _ _ _ _ => r.value = 0 ∧ r.out = []
      | .updateAad _ => r.value = 0 ∧ r.out = []
      | .update _ _ => r.value.toNat = r.out.length
      | .finalize _ _ => r.value.toNat = r.out.length
      | .getOutputSize n isfinal => r.value.toNat = getSize s n.toNat isfinal ∧ r.out = [])

/-- R105: a successful UPDATE or FINALIZE puts out exactly the bytes the sizing contract gives for the state before the
command, and the contract's table by engine. -/
def Obligations.OutputLengthIsGetSize : Prop :=
  ∀ (data : Bytes) (outcap : U64) (s : State),
    (statusOf (.update data outcap) s = .ok → ∃ t r, exec (.update data outcap) s = .next t ∧
      t.responses = r :: s.responses ∧ r.status = .ok ∧ r.out.length = getSize s data.length false ∧
      r.out.length = (match engineOf s.mode s.dir with
        | .stream => data.length
        | .aeadEnc => data.length
        | .aeadDec => 0)) ∧
    (statusOf (.finalize data outcap) s = .ok → ∃ t r, exec (.finalize data outcap) s = .next t ∧
      t.responses = r :: s.responses ∧ r.status = .ok ∧ r.out.length = getSize s data.length true ∧
      r.out.length = (match engineOf s.mode s.dir with
        | .stream => data.length
        | .aeadEnc => data.length + 16
        | .aeadDec => s.pend.length + data.length - 16))

/-- The reuse guard's record (KEY, NONCE, KNVALID) is written by a successful INIT, with its operands, and by no other
command (R30, R32, R33, R167). -/
def Obligations.RecordWrittenOnlyByInit : Prop :=
  ∀ (i : Instr) (s : State), ∃ t r, exec i s = .next t ∧ t.responses = r :: s.responses ∧
    ((∃ dir mode key nonce ictr, i = .init dir mode key nonce ictr ∧ r.status = .ok ∧ t.knvalid = true ∧
        t.key.toList = key ∧ t.nonce.toList = nonce) ∨
     (t.knvalid = s.knvalid ∧ t.key = s.key ∧ t.nonce = s.nonce))

/-- R52: while `PHASE = UNINIT` no response can tell what the session registers hold. Two such states that agree on the
reuse guard's record and the configuration give the same responses to the same commands, whatever else they hold. -/
def Obligations.StaleRegistersAreUnobservable : Prop :=
  ∀ s t : State, s.phase = .uninit → t.phase = .uninit → s.cfg = t.cfg → s.knvalid = t.knvalid →
    (s.knvalid = true → s.key = t.key ∧ s.nonce = t.nonce) →
    ∀ is : List Instr, ∃ s' t', execAll is s = .next s' ∧ execAll is t = .next t' ∧
      lastResponses is.length s' = lastResponses is.length t'

/-- R168: a successful INIT fully determines the session. Two instances with the same configuration given the same
successful INIT and then the same commands give the same responses. -/
def Obligations.InitDeterminesTheSession : Prop :=
  ∀ (s t : State) (dir : Dir) (mode : Mode) (key nonce : Bytes) (ictr : Word), s.cfg = t.cfg →
    initAccepted key nonce s → initAccepted key nonce t →
    ∀ is : List Instr, ∃ s' t', execAll (.init dir mode key nonce ictr :: is) s = .next s' ∧
      execAll (.init dir mode key nonce ictr :: is) t = .next t' ∧
      lastResponses (is.length + 1) s' = lastResponses (is.length + 1) t'

/-! ## INIT (42_init_and_query.md) -/

/-- R163: a successful INIT in mode PlainStream, in every phase (R166): the whole next state. AADLEN, DATALEN, ACLOSED,
AUTH and PEND are not written; KSBUF is unspecified (R42). -/
def Obligations.InitStreamLoadsTheSession : Prop :=
  ∀ (dir : Dir) (key nonce : Bytes) (ictr : Word) (s : State), initAccepted key nonce s →
    ∃ t, exec (.init dir .stream key nonce ictr) s = .next t ∧ t.key.toList = key ∧ t.nonce.toList = nonce ∧
      t.ks.start = mkStart s.cfg.sigma t.key t.nonce ∧ t.ks.ctr0 = ictr ∧ t.ks.ctr = ictr ∧ t.ks.blocks.val = 0 ∧
      t.ks.offset.val = 64 ∧
      t = { s with
        phase := .initialized, mode := .stream, dir := dir, knvalid := true, key := t.key, nonce := t.nonce, ks := t.ks,
        draws := t.draws, responses := ⟨.ok, 0, []⟩ :: s.responses }

/-- R164: a successful INIT in mode AEAD, in every phase: the whole next state, the subkey the first 32 bytes of the
block with counter 0 (R165 marks which 32 bytes as general knowledge, G3; PRESUMED, log 3), and the operand `ictr`
without effect. -/
def Obligations.InitAeadLoadsTheSession : Prop :=
  ∀ (dir : Dir) (key nonce : Bytes) (ictr : Word) (s : State), initAccepted key nonce s →
    ∃ t, exec (.init dir .aead key nonce ictr) s = .next t ∧ exec (.init dir .aead key nonce 0) s = .next t ∧
      t.key.toList = key ∧ t.nonce.toList = nonce ∧ t.ks.start = mkStart s.cfg.sigma t.key t.nonce ∧
      t.ks.ctr0 = 0 ∧ t.ks.ctr = 1 ∧ t.ks.blocks.val = 1 ∧ t.ks.offset.val = 64 ∧
      t.auth.key.toList = (block t.ks.start 0).toList.take 32 ∧ t.auth.msg = [] ∧
      t = { s with
        phase := .initialized, mode := .aead, dir := dir, knvalid := true, key := t.key, nonce := t.nonce, ks := t.ks,
        auth := t.auth, aadlen := 0, datalen := 0, aclosed := false, pend := [], draws := t.draws,
        responses := ⟨.ok, 0, []⟩ :: s.responses }

/-- R161: a key that is not exactly 32 bytes, or a nonce that is not exactly 12, raises `InvalidKey`, before the reuse
guard and whatever the bytes are. -/
def Obligations.InitChecksLengths : Prop :=
  ∀ (dir : Dir) (mode : Mode) (key nonce : Bytes) (ictr : Word) (s : State),
    ∃ t r, exec (.init dir mode key nonce ictr) s = .next t ∧ t.responses = r :: s.responses ∧
      (r.status = .err .invalidKey ↔ key.length ≠ 32 ∨ nonce.length ≠ 12)

/-- R162: the reuse guard. (a) With the right lengths, `NonceReuse` exactly when the pair is the recorded one; mode,
direction and `ictr` play no part. (b) P, Q, P succeeds three times for P other than Q. (c) P, an INIT that fails
`InvalidKey`, P: the third fails `NonceReuse`. -/
def Obligations.ReuseGuard : Prop :=
  (∀ (dir : Dir) (mode : Mode) (key nonce : Bytes) (ictr : Word) (s : State), key.length = 32 → nonce.length = 12 →
    ∃ t r, exec (.init dir mode key nonce ictr) s = .next t ∧ t.responses = r :: s.responses ∧
      (r.status = .err .nonceReuse ↔ s.knvalid = true ∧ key = s.key.toList ∧ nonce = s.nonce.toList)) ∧
  (∀ (d1 d2 d3 : Dir) (m1 m2 m3 : Mode) (k n k' n' : Bytes) (c1 c2 c3 : Word) (s : State), initAccepted k n s →
    k'.length = 32 → n'.length = 12 → (k, n) ≠ (k', n') →
    ∃ t, execAll [.init d1 m1 k n c1, .init d2 m2 k' n' c2, .init d3 m3 k n c3] s = .next t ∧
      (lastResponses 3 t).map Response.status = [.ok, .ok, .ok]) ∧
  (∀ (d1 d2 d3 : Dir) (m1 m2 m3 : Mode) (k n k' n' : Bytes) (c1 c2 c3 : Word) (s : State), initAccepted k n s →
    (k'.length ≠ 32 ∨ n'.length ≠ 12) →
    ∃ t, execAll [.init d1 m1 k n c1, .init d2 m2 k' n' c2, .init d3 m3 k n c3] s = .next t ∧
      (lastResponses 3 t).map Response.status = [.ok, .err .invalidKey, .err .nonceReuse])

/-! ## GET_OUTPUT_SIZE -/

/-- R170, R171: in a session, a query whose answer fits 64 bits answers the table's size and changes nothing else. -/
def Obligations.OutputSizeQuery : Prop :=
  ∀ (n : U64) (isfinal : Bool) (s : State) (v : U64), s.phase ≠ .uninit →
    v.toNat = (match engineOf s.mode s.dir, isfinal with
      | .stream, _ => n.toNat
      | .aeadEnc, false => n.toNat
      | .aeadEnc, true => n.toNat + 16
      | .aeadDec, false => 0
      | .aeadDec, true => s.pend.length + n.toNat - 16) →
    exec (.getOutputSize n isfinal) s = .next { s with responses := ⟨.ok, v, []⟩ :: s.responses }

/-- GET_OUTPUT_SIZE raises `Overflow` exactly when there is a session and the answer exceeds 2^64 - 1, and
`IllegalState` exactly when there is none (R170, R172). -/
def Obligations.OutputSizeErrors : Prop :=
  ∀ (n : U64) (isfinal : Bool) (s : State), ∃ t r, exec (.getOutputSize n isfinal) s = .next t ∧
    t.responses = r :: s.responses ∧ (r.status = .err .illegalState ↔ s.phase = .uninit) ∧
    (r.status = .err .overflow ↔ s.phase ≠ .uninit ∧ isfinal = true ∧
      ((engineOf s.mode s.dir = .aeadEnc ∧ 2 ^ 64 - 16 ≤ n.toNat) ∨
       (engineOf s.mode s.dir = .aeadDec ∧ 2 ^ 64 + 16 ≤ s.pend.length + n.toNat)))

/-! ## The Block Transform (40_block_transform.md) -/

/-- R120: the sixteen words of the start state. That four key or nonce bytes make a word little-endian is what R120 marks
as general knowledge (93_implementation_defined.md G2; PRESUMED, log 3). -/
def Obligations.StartStateWords : Prop :=
  ∀ (sigma : Vector Word 4) (key : Vector Byte 32) (nonce : Vector Byte 12),
    (∀ i : Fin 4, (mkStart sigma key nonce)[i.val] = sigma[i]) ∧
    (∀ k : Fin 8, (mkStart sigma key nonce)[4 + k.val] = le32 (memRead key.toList (4 * k.val) 4)) ∧
    (mkStart sigma key nonce)[12] = 0 ∧
    (∀ k : Fin 3, (mkStart sigma key nonce)[13 + k.val] = le32 (memRead nonce.toList (4 * k.val) 4))

/-- R121: for four distinct indices, `QR` writes the values of the twelve steps to its four words and leaves the other
twelve untouched. -/
def Obligations.QuarterRoundOnTheArray : Prop :=
  ∀ (a b c d : Fin 16) (x : Words), [a, b, c, d].Nodup →
    let a1 := x[a] + x[b]
    let d1 := rotl32 (x[d] ^^^ a1) 16
    let c1 := x[c] + d1
    let b1 := rotl32 (x[b] ^^^ c1) 12
    let a2 := a1 + b1
    let d2 := rotl32 (d1 ^^^ a2) 8
    let c2 := c1 + d2
    let b2 := rotl32 (b1 ^^^ c2) 7
    (qr a b c d x)[a] = a2 ∧ (qr a b c d x)[b] = b2 ∧ (qr a b c d x)[c] = c2 ∧ (qr a b c d x)[d] = d2 ∧
    ∀ i : Fin 16, i ∉ [a, b, c, d] → (qr a b c d x)[i] = x[i]

/-- Two quarter-rounds on disjoint groups of distinct indices commute, so a column round and a diagonal round may take
their groups in any order (R123, R124). -/
def Obligations.QuarterRoundsCommute : Prop :=
  ∀ (a b c d e f g h : Fin 16) (x : Words), [a, b, c, d, e, f, g, h].Nodup →
    qr a b c d (qr e f g h x) = qr e f g h (qr a b c d x)

/-- `QR` is a bijection on its four words, and so any number of double-rounds is a bijection on the working array: an
invertible permutation, without the feed-forward (R122, R128). -/
def Obligations.RoundsArePermutations : Prop :=
  Function.Bijective quarter ∧ ∀ n : Nat, Function.Bijective (doubleRounds n)

/-- The feed-forward adds the original state with the counter in word 12, and the placeholder `start[12]` has no effect
(R126, R128). -/
def Obligations.FeedForwardAddsTheCounter : Prop :=
  ∀ (start : Words) (ctr w : Word),
    (blockWords start ctr)[12] = (doubleRounds 10 (start.set 12 ctr))[12] + ctr ∧
    (∀ i : Fin 16, i ≠ 12 → (blockWords start ctr)[i] = (doubleRounds 10 (start.set 12 ctr))[i] + start[i]) ∧
    block (start.set 12 w) ctr = block start ctr

/-- R127: byte `4i + j` of the block is bits `[8j+7 : 8j]` of output word `i`. -/
def Obligations.BlockIsLittleEndian : Prop :=
  ∀ (start : Words) (ctr : Word) (i : Fin 16) (j : Fin 4),
    (block start ctr)[4 * i.val + j.val] = (blockWords start ctr)[i].extractLsb' (8 * j.val) 8

/-! ## The Keystream Manager and the XOR Combiner (41_keystream_and_xor.md) -/

/-- `CONSUME(n)` fails exactly when `n > AVAIL` (R141, R142, R145). -/
def Obligations.ConsumeFailsExactlyBeyondAvail : Prop :=
  ∀ (n : Nat) (k : Keystream), consume n k = none ↔ avail k < n

/-- R69: the keystream position law. In a session that has handed out `P` bytes, the next `n` bytes are those at
positions `P` to `P + n - 1`, and `P + n` have been handed out afterwards; right after INIT `P` is 0. -/
def Obligations.KeystreamPositionLaw : Prop :=
  (∀ (s : State) (n : Nat), s.phase ≠ .uninit → SessionInv s → n ≤ avail s.ks →
    ∃ out k, consume n s.ks = some (out, k) ∧ out.length = n ∧
      (∀ i : Nat, i < n → out[i]? = some (keystreamByte s.ks.start (firstCounter s) (keystreamPos s + i))) ∧
      keystreamPos { s with ks := k } = keystreamPos s + n ∧ avail k + n = avail s.ks) ∧
  (∀ (dir : Dir) (mode : Mode) (key nonce : Bytes) (ictr : Word) (s : State), initAccepted key nonce s →
    ∃ t, exec (.init dir mode key nonce ictr) s = .next t ∧ keystreamPos t = 0)

/-- R151: block accounting. From an exhausted buffer, `CONSUME(64 * n)` uses exactly `n` blocks, leaves the buffer
exhausted, and returns the blocks with the successive counter values. -/
def Obligations.BlockAccounting : Prop :=
  ∀ (n : Nat) (k : Keystream), k.offset.val = 64 → 64 * n ≤ avail k →
    ∃ k', consume (64 * n) k =
        some (((List.range n).map fun j => (block k.start (k.ctr + BitVec.ofNat 32 j)).toList).flatten, k') ∧
      k'.blocks.val = k.blocks.val + n ∧ k'.offset.val = 64 ∧ k'.ctr = k.ctr + BitVec.ofNat 32 n ∧
      k'.ctr0 = k.ctr0 ∧ k'.start = k.start

/-- R149: the splitting law. -/
def Obligations.SplittingLaw : Prop :=
  ∀ (a b : Bytes) (k : Keystream), a.length + b.length ≤ avail k →
    ∃ o1 k1 o2 k2, xorStream a k = some (o1, k1) ∧ xorStream b k1 = some (o2, k2) ∧
      xorStream (a ++ b) k = some (o1 ++ o2, k2)

/-- Involution: two sessions initialised with the same key, nonce, mode and (in mode PlainStream) counter, on two
instances; the second, fed the output of the first, returns the first's input (R150). -/
def Obligations.SecondSessionReturnsTheInput : Prop :=
  ∀ (mode : Mode) (key nonce data : Bytes) (ictr : Word) (cap : U64) (s t : State), s.cfg.sigma = t.cfg.sigma →
    initAccepted key nonce s → initAccepted key nonce t → data.length ≤ 64 * (Config.maxBlocks - firstBlocks mode) →
    data.length ≤ cap.toNat →
    ∃ s' t' out, execAll [.init .enc mode key nonce ictr, .update data cap] s = .next s' ∧
      lastResponses 2 s' = [⟨.ok, 0, []⟩, ⟨.ok, len64 data, out⟩] ∧
      execAll [.init .enc mode key nonce ictr, .update out cap] t = .next t' ∧
      lastResponses 2 t' = [⟨.ok, 0, []⟩, ⟨.ok, len64 data, data⟩]

/-- Wrap-around is not exhaustion: a refill after the counter 0xFFFFFFFF goes on with 0 while the budget lasts; when all
2^32 blocks are used the counter has come back to `CTR0` and no block can be generated (R36, R142, R146). -/
def Obligations.ExhaustionIsNotWrapAround : Prop :=
  ∀ s : State, s.phase ≠ .uninit → SessionInv s →
    (s.ks.blocks.val < Config.maxBlocks →
      ∃ k, refill s.ks = some k ∧ k.blocks.val = s.ks.blocks.val + 1 ∧ k.ctr = s.ks.ctr + 1 ∧
        k.ksbuf = block s.ks.start s.ks.ctr) ∧
    (s.ks.blocks.val = Config.maxBlocks → s.ks.ctr = s.ks.ctr0 ∧ refill s.ks = none)

/-- In mode AEAD the data keystream never uses counter 0, so the subkey's block is never handed out (R147). -/
def Obligations.AeadKeystreamSkipsCounterZero : Prop :=
  ∀ (s : State) (k : Keystream), s.phase ≠ .uninit → SessionInv s → s.mode = .aead → refill s.ks = some k →
    s.ks.ctr ≠ 0

/-! ## The Stream Engine (43_stream_engine.md) -/

/-- R183: `STREAM_UPDATE`, past the prologue: the output is the input exclusive-or-ed with the keystream at the session's
position, only KSBUF, OFFSET, BLOCKS, CTR and PHASE change; beyond `AVAIL` it raises `CounterExhausted`. -/
def Obligations.StreamUpdate : Prop :=
  ∀ (data : Bytes) (outcap : U64) (s : State), s.phase ≠ .uninit → SessionInv s → s.mode = .stream →
    data.length ≤ outcap.toNat →
    (data.length ≤ avail s.ks → ∃ k,
      xorStream data s.ks = some (xorAt s.ks.start s.ks.ctr0 (keystreamPos s) data, k) ∧
      k.start = s.ks.start ∧ k.ctr0 = s.ks.ctr0 ∧ keystreamPos { s with ks := k } = keystreamPos s + data.length ∧
      exec (.update data outcap) s = .next { s with
        ks := k, phase := .data,
        responses := ⟨.ok, len64 data, xorAt s.ks.start s.ks.ctr0 (keystreamPos s) data⟩ :: s.responses }) ∧
    (avail s.ks < data.length → ∃ t, exec (.update data outcap) s = .next t ∧ t.phase = .uninit ∧
      t.responses = ⟨.err .counterExhausted, 0, []⟩ :: s.responses)

/-- R184: `STREAM_FINALIZE` differs from `STREAM_UPDATE` in the phase only: no tag is appended and the session ends. That
the other registers stand afterwards is the model's choice, which R52 permits (DESIGN CHOICE, log 5). -/
def Obligations.StreamFinalize : Prop :=
  ∀ (data : Bytes) (outcap : U64) (s : State), s.phase ≠ .uninit → SessionInv s → s.mode = .stream →
    data.length ≤ outcap.toNat →
    (data.length ≤ avail s.ks → ∃ k,
      xorStream data s.ks = some (xorAt s.ks.start s.ks.ctr0 (keystreamPos s) data, k) ∧
      k.start = s.ks.start ∧ k.ctr0 = s.ks.ctr0 ∧ keystreamPos { s with ks := k } = keystreamPos s + data.length ∧
      exec (.finalize data outcap) s = .next { s with
        ks := k, phase := .uninit,
        responses := ⟨.ok, len64 data, xorAt s.ks.start s.ks.ctr0 (keystreamPos s) data⟩ :: s.responses }) ∧
    (avail s.ks < data.length → ∃ t, exec (.finalize data outcap) s = .next t ∧ t.phase = .uninit ∧
      t.responses = ⟨.err .counterExhausted, 0, []⟩ :: s.responses)

/-- R186: stream sessions in both directions are the same function: the same commands after INIT ENC and after INIT DEC
give the same responses. -/
def Obligations.StreamDirectionIsIrrelevant : Prop :=
  ∀ (key nonce : Bytes) (ictr : Word) (s t : State), s.cfg = t.cfg → initAccepted key nonce s →
    initAccepted key nonce t → ∀ is : List Instr,
    ∃ s' t', execAll (.init .enc .stream key nonce ictr :: is) s = .next s' ∧
      execAll (.init .dec .stream key nonce ictr :: is) t = .next t' ∧
      lastResponses (is.length + 1) s' = lastResponses (is.length + 1) t'

/-! ## UPDATE_AAD and the AEAD Encrypt Engine (44_aead_encrypt.md) -/

/-- UPDATE_AAD feeds its data to the authenticator, counts it, and changes nothing else but PHASE; the output is empty
(R190). -/
def Obligations.UpdateAadFeedsTheAuthenticator : Prop :=
  ∀ (data : Bytes) (s : State), s.mode = .aead → (s.phase = .initialized ∨ s.phase = .aad) →
    s.aadlen.toNat + data.length ≤ Config.maxU64 →
    ∃ n : U64, n.toNat = s.aadlen.toNat + data.length ∧
      exec (.updateAad data) s = .next { s with
        auth := ⟨s.auth.key, s.auth.msg ++ data⟩, aadlen := n, phase := .aad,
        responses := ⟨.ok, 0, []⟩ :: s.responses }

/-- R191: `AADLEN` never wraps: where UPDATE_AAD is legal it raises `Overflow` exactly when the sum passes 2^64 - 1, and
otherwise the register holds the sum. -/
def Obligations.AadLengthNeverWraps : Prop :=
  ∀ (data : Bytes) (s : State), s.mode = .aead → (s.phase = .initialized ∨ s.phase = .aad) →
    ∃ t r, exec (.updateAad data) s = .next t ∧ t.responses = r :: s.responses ∧
      (2 ^ 64 - 1 < s.aadlen.toNat + data.length → r.status = .err .overflow ∧ t.phase = .uninit) ∧
      (s.aadlen.toNat + data.length ≤ 2 ^ 64 - 1 → r.status = .ok ∧ t.aadlen.toNat = s.aadlen.toNat + data.length)

/-- R193: `AEADENC_UPDATE`, past the prologue: the AAD is closed (its padding fed once), the data encrypted at the
session's position, the ciphertext fed and counted and put out; only ACLOSED, AUTH.msg, KSBUF, OFFSET, BLOCKS, CTR,
DATALEN and PHASE change. Beyond `AVAIL` it raises `CounterExhausted`. -/
def Obligations.AeadEncUpdate : Prop :=
  ∀ (data : Bytes) (outcap : U64) (s : State), s.phase ≠ .uninit → SessionInv s → s.mode = .aead → s.dir = .enc →
    data.length ≤ outcap.toNat →
    (data.length ≤ avail s.ks → ∃ (k : Keystream) (n : U64),
      let ct := xorAt s.ks.start 1 s.datalen.toNat data
      xorStream data s.ks = some (ct, k) ∧ k.start = s.ks.start ∧ k.ctr0 = s.ks.ctr0 ∧
      n.toNat = s.datalen.toNat + data.length ∧
      exec (.update data outcap) s = .next { s with
        aclosed := true, auth := ⟨s.auth.key, s.auth.msg ++ closingPad s ++ ct⟩, ks := k, datalen := n, phase := .data,
        responses := ⟨.ok, len64 data, ct⟩ :: s.responses }) ∧
    (avail s.ks < data.length → ∃ t, exec (.update data outcap) s = .next t ∧ t.phase = .uninit ∧
      t.responses = ⟨.err .counterExhausted, 0, []⟩ :: s.responses)

/-- R194: `AEADENC_FINALIZE`, past the prologue: the ciphertext of this command's data, then the 16-byte tag over
everything fed, its padding and the two lengths (R195, R196); AADLEN and DATALEN are 0 and the session ends. AUTH is
unspecified afterwards (R46); that the other registers stand is the model's choice, which R52 permits (DESIGN CHOICE,
log 5). Beyond `AVAIL` it raises `CounterExhausted`. -/
def Obligations.AeadEncFinalize : Prop :=
  ∀ (data : Bytes) (outcap : U64) (s : State), s.phase ≠ .uninit → SessionInv s → s.mode = .aead → s.dir = .enc →
    data.length + 16 ≤ outcap.toNat →
    (data.length ≤ avail s.ks → ∃ (k : Keystream) (t : State),
      let ct := xorAt s.ks.start 1 s.datalen.toNat data
      let tag := macOf s.cfg.mac s.auth.key
        (s.auth.msg ++ closingPad s ++ ct ++ macEnd s.aadlen (s.datalen.toNat + data.length))
      xorStream data s.ks = some (ct, k) ∧
      exec (.finalize data outcap) s = .next t ∧
      t = { s with
        aclosed := true, auth := t.auth, draws := t.draws, ks := k, aadlen := 0, datalen := 0, phase := .uninit,
        responses := ⟨.ok, BitVec.ofNat 64 (data.length + 16), ct ++ tag.toList⟩ :: s.responses }) ∧
    (avail s.ks < data.length → ∃ t, exec (.finalize data outcap) s = .next t ∧ t.phase = .uninit ∧
      t.responses = ⟨.err .counterExhausted, 0, []⟩ :: s.responses)

/-- R197: the authenticator input of a whole session. From any state, INIT, any UPDATE_AADs, any UPDATEs and a FINALIZE
put out, together, the ciphertext and the tag over
`A ++ zeros(pad16) ++ C ++ zeros(pad16) ++ LE64(len A) ++ LE64(len C)`; how the host cut A and the data into commands does
not show, and the input's length is a multiple of 16. The tag's key is `subkeyOf`, the first 32 bytes of the block with
counter 0 (R165 marks which 32 bytes as general knowledge, G3; PRESUMED, log 3). -/
def Obligations.SealedSession : Prop :=
  ∀ (s : State) (key nonce : Bytes) (ictr : Word) (aads datas : List Bytes) (last : Bytes) (cap : U64),
    initAccepted key nonce s → aads.flatten.length ≤ Config.maxU64 →
    (datas.flatten ++ last).length ≤ 64 * (Config.maxBlocks - 1) → (datas.flatten ++ last).length + 16 ≤ cap.toNat →
    ∃ t, execAll (aeadSession .enc key nonce ictr aads datas last cap) s = .next t ∧
      (∀ r ∈ lastResponses (sessionLength aads datas) t, r.status = .ok) ∧
      let start := startOf s.cfg.sigma key nonce
      let c := xorAt start 1 0 (datas.flatten ++ last)
      lastOutput (sessionLength aads datas) t =
        c ++ (macOf s.cfg.mac (subkeyOf start) (macInput aads.flatten c)).toList ∧
      (macInput aads.flatten c).length % 16 = 0

/-! ## The AEAD Decrypt Engine (45_aead_decrypt.md) -/

/-- R212: `AEADDEC_UPDATE`, whatever `outcap` is: the AAD is closed, the data appended to PEND, no output, no keystream
consumed; beyond PENDING_CAP it raises `Overflow`. -/
def Obligations.AeadDecUpdateOnlyBuffers : Prop :=
  ∀ (data : Bytes) (outcap : U64) (s : State), s.phase ≠ .uninit → s.mode = .aead → s.dir = .dec →
    ((∀ cap, s.cfg.pendingCap = some cap → s.pend.length + data.length ≤ cap) →
      exec (.update data outcap) s = .next { s with
        aclosed := true, auth := ⟨s.auth.key, s.auth.msg ++ closingPad s⟩, pend := s.pend ++ data, phase := .data,
        responses := ⟨.ok, 0, []⟩ :: s.responses }) ∧
    (∀ cap, s.cfg.pendingCap = some cap → cap < s.pend.length + data.length →
      ∃ t, exec (.update data outcap) s = .next t ∧ t.phase = .uninit ∧
        t.responses = ⟨.err .overflow, 0, []⟩ :: s.responses)

/-- R214: `AEADDEC_FINALIZE`, past the prologue: too short or a wrong tag is `BadTag`; a right tag without enough
keystream is `CounterExhausted`; otherwise the plaintext of everything received but the last 16 bytes, at keystream
position 0, AADLEN, DATALEN and PEND cleared and the session ended. That the other registers stand after a success is the
model's choice, which R52 permits (DESIGN CHOICE, log 5). -/
def Obligations.AeadDecFinalize : Prop :=
  ∀ (data : Bytes) (outcap : U64) (s : State), s.phase ≠ .uninit → SessionInv s → s.mode = .aead → s.dir = .dec →
    s.pend.length + data.length - 16 ≤ outcap.toNat →
    (((received s data).length < 16 ∨ (computedTag s data).toList ≠ receivedTag s data) →
      ∃ t, exec (.finalize data outcap) s = .next t ∧ t.phase = .uninit ∧
        t.responses = ⟨.err .badTag, 0, []⟩ :: s.responses) ∧
    (16 ≤ (received s data).length → (computedTag s data).toList = receivedTag s data →
      avail s.ks < (receivedCt s data).length →
      ∃ t, exec (.finalize data outcap) s = .next t ∧ t.phase = .uninit ∧
        t.responses = ⟨.err .counterExhausted, 0, []⟩ :: s.responses) ∧
    (16 ≤ (received s data).length → (computedTag s data).toList = receivedTag s data →
      (receivedCt s data).length ≤ avail s.ks →
      ∃ (k : Keystream) (t : State),
        let pt := xorAt s.ks.start 1 0 (receivedCt s data)
        xorStream (receivedCt s data) s.ks = some (pt, k) ∧
        exec (.finalize data outcap) s = .next t ∧
        t = { s with
          aclosed := true, auth := t.auth, draws := t.draws, ks := k, aadlen := 0, datalen := 0, pend := [],
          phase := .uninit, responses := ⟨.ok, len64 (receivedCt s data), pt⟩ :: s.responses })

/-- A failed verification releases nothing: the response is the 12 bytes of `BadTag`, and every command but INIT that
follows fails `IllegalState` (R217, R237). -/
def Obligations.BadTagReleasesNothing : Prop :=
  ∀ (data : Bytes) (outcap : U64) (s : State), statusOf (.finalize data outcap) s = .err .badTag →
    ∃ t r, exec (.finalize data outcap) s = .next t ∧ t.responses = r :: s.responses ∧
      responseBytes r = 6 :: List.replicate 11 0 ∧
      ∀ i : Instr, (∀ dir mode key nonce ictr, i ≠ .init dir mode key nonce ictr) →
        ∃ u q, exec i t = .next u ∧ u.responses = q :: t.responses ∧ q.status = .err .illegalState ∧ q.out = []

/-- `TAGEQ` is true exactly when all 128 bits agree (R216). -/
def Obligations.TagEqIsEquality : Prop :=
  ∀ c p : Bytes, c.length = 16 → p.length = 16 → (tagEq c p = true ↔ c = p)

/-- Flipping bits of the tag alone is always detected: where a FINALIZE would succeed, the same FINALIZE with the same
ciphertext and another tag fails `BadTag`, for every MAC (R221). -/
def Obligations.FlippedTagIsRejected : Prop :=
  ∀ (data data' : Bytes) (outcap : U64) (s : State), s.phase ≠ .uninit → s.mode = .aead → s.dir = .dec →
    statusOf (.finalize data outcap) s = .ok → data'.length = data.length →
    receivedCt s data' = receivedCt s data → data' ≠ data →
    ∃ t, exec (.finalize data' outcap) s = .next t ∧ t.phase = .uninit ∧
      t.responses = ⟨.err .badTag, 0, []⟩ :: s.responses

/-- The release gate: in engine AEAD_DEC the only command with output bytes is a FINALIZE whose computed tag equals the
presented tag, and an UPDATE leaves CTR, BLOCKS, KSBUF and OFFSET alone (R74, R210). -/
def Obligations.ReleaseGate : Prop :=
  ∀ (i : Instr) (s : State), s.mode = .aead → s.dir = .dec → ∃ t r, exec i s = .next t ∧
    t.responses = r :: s.responses ∧
    (r.out ≠ [] → ∃ data outcap, i = .finalize data outcap ∧ 16 ≤ (received s data).length ∧
      (computedTag s data).toList = receivedTag s data ∧ r.out.length = (received s data).length - 16) ∧
    (∀ data outcap, i = .update data outcap → r.status = .ok → t.ks = s.ks)

/-- R220: the round trip. What a session of engine AEAD_ENC puts out, a session of engine AEAD_DEC on another instance
with the same key, nonce, AAD, SIGMA and MAC turns back into the plaintext, however both sessions are cut into commands. -/
def Obligations.AeadRoundTrip : Prop :=
  ∀ (s t : State) (key nonce : Bytes) (c1 c2 : Word) (aads aads' datas datas' : List Bytes) (last last' : Bytes)
    (cap cap' : U64),
    s.cfg.sigma = t.cfg.sigma → s.cfg.mac = t.cfg.mac → initAccepted key nonce s → initAccepted key nonce t →
    aads.flatten.length ≤ Config.maxU64 → aads'.flatten = aads.flatten →
    (datas.flatten ++ last).length ≤ 64 * (Config.maxBlocks - 1) → (datas.flatten ++ last).length + 16 ≤ cap.toNat →
    (datas.flatten ++ last).length ≤ cap'.toNat →
    (∀ n, t.cfg.pendingCap = some n → datas'.flatten.length ≤ n) →
    ∃ s', execAll (aeadSession .enc key nonce c1 aads datas last cap) s = .next s' ∧
      (datas'.flatten ++ last' = lastOutput (sessionLength aads datas) s' →
        ∃ t', execAll (aeadSession .dec key nonce c2 aads' datas' last' cap') t = .next t' ∧
          (∀ r ∈ lastResponses (sessionLength aads' datas') t', r.status = .ok) ∧
          lastOutput (sessionLength aads' datas') t' = datas.flatten ++ last)
end

