-- ==== Sys2Proof/Laws/Bytes.lean ====
section
/-! SUPPORT. Small lemmas about byte sequences, little-endian numbers, registers and slices. -/

namespace Sys2Proof

@[simp] theorem leBytes_length (n v : Nat) : (leBytes n v).length = n := by
  induction n generalizing v with
  | zero => rfl
  | succ n ih => simp [leBytes, ih]

@[simp] theorem toLE32_length (w : Word) : (toLE32 w).length = 4 := leBytes_length 4 _

@[simp] theorem toLE64_length (v : U64) : (toLE64 v).length = 8 := leBytes_length 8 _

theorem leNat_leBytes (n v : Nat) : leNat (leBytes n v) = v % 256 ^ n := by
  induction n generalizing v with
  | zero => simp [leBytes, leNat, Nat.mod_one]
  | succ n ih =>
    have h256 : (2 : Nat) ^ 8 = 256 := rfl
    rw [leBytes, leNat, ih, BitVec.toNat_ofNat, h256, Nat.pow_succ, Nat.mul_comm (256 ^ n), Nat.mod_mul]

theorem leNat_lt (b : Bytes) : leNat b < 256 ^ b.length := by
  induction b with
  | nil => simp [leNat]
  | cons x xs ih =>
    have := x.isLt
    simp only [leNat, List.length_cons, Nat.pow_succ]
    omega

theorem leBytes_leNat (b : Bytes) : leBytes b.length (leNat b) = b := by
  induction b with
  | nil => rfl
  | cons x xs ih =>
    have hx := x.isLt
    have hd : (x.toNat + 256 * leNat xs) / 256 = leNat xs := by omega
    simp only [List.length_cons, leBytes, leNat, hd, ih]
    congr 1
    apply BitVec.eq_of_toNat_eq
    simp only [BitVec.toNat_ofNat]
    omega

theorem le32_toLE32 (w : Word) : le32 (toLE32 w) = w := by
  have h : w.toNat % 256 ^ 4 = w.toNat := Nat.mod_eq_of_lt w.isLt
  rw [le32, toLE32, leNat_leBytes, h, BitVec.ofNat_toNat, BitVec.setWidth_eq]

theorem le64_toLE64 (v : U64) : le64 (toLE64 v) = v := by
  have h : v.toNat % 256 ^ 8 = v.toNat := Nat.mod_eq_of_lt v.isLt
  rw [le64, toLE64, leNat_leBytes, h, BitVec.ofNat_toNat, BitVec.setWidth_eq]

/-- A slice that lies in the second part of a concatenation. -/
theorem memRead_append_right (x y : Bytes) (a n : Nat) (h : x.length ≤ a) :
    memRead (x ++ y) a n = memRead y (a - x.length) n := by
  simp [memRead, List.drop_append, List.drop_eq_nil_of_le h]

/-- A slice that is the whole first part of a concatenation. -/
theorem memRead_append_left (x y : Bytes) (n : Nat) (h : x.length = n) : memRead (x ++ y) 0 n = x := by
  simp [memRead, ← h]

theorem memRead_all (x : Bytes) (n : Nat) (h : x.length = n) : memRead x 0 n = x := by
  simp [memRead, ← h]

@[simp] theorem memRead_length (x : Bytes) (a n : Nat) : (memRead x a n).length = min n (x.length - a) := by
  simp [memRead]

namespace Machine

theorem toRegister_toList (n : Nat) (b : Bytes) (h : b.length = n) : (toRegister n b).toList = b := by
  subst h
  apply List.ext_getElem
  · simp [toRegister]
  · intro i h1 h2
    simp [toRegister, List.getD_eq_getElem?_getD]

theorem toRegister_of_toList (n : Nat) (v : Vector Byte n) : toRegister n v.toList = v := by
  apply Vector.ext
  intro i h
  simp [toRegister]

end Machine

end Sys2Proof
end

