-- ==== Sys2Proof/Laws/Keystream.lean ====
section
/-! SUPPORT. The Keystream Manager said once: what a refill does, and that `CONSUME`'s loop hands out one byte after the
other. Later proofs are inductions over `byteLoop`. -/

namespace Sys2Proof.Machine

open Sys2Proof

/-- A refill happens exactly while fewer than 2^32 blocks are used, and this is all it does (R142, R143). -/
theorem refill_eq (k : Keystream) :
    (∃ k', refill k = some k' ∧ k.blocks.val < Config.maxBlocks ∧ k'.start = k.start ∧ k'.ctr0 = k.ctr0 ∧
      k'.ctr = k.ctr + 1 ∧ k'.blocks.val = k.blocks.val + 1 ∧ k'.ksbuf = block k.start k.ctr ∧ k'.offset.val = 0) ∨
    (refill k = none ∧ k.blocks.val = Config.maxBlocks) := by
  have hk := k.blocks.isLt
  simp only [refill, Config.maxBlocks] at *
  split
  · exact .inl ⟨_, rfl, by omega, rfl, rfl, rfl, rfl, rfl, rfl⟩
  · exact .inr ⟨rfl, by omega⟩

@[simp] theorem advance_start (k : Keystream) (n : Nat) : (advance k n).start = k.start := rfl
@[simp] theorem advance_ctr0 (k : Keystream) (n : Nat) : (advance k n).ctr0 = k.ctr0 := rfl
@[simp] theorem advance_ctr (k : Keystream) (n : Nat) : (advance k n).ctr = k.ctr := rfl
@[simp] theorem advance_blocks (k : Keystream) (n : Nat) : (advance k n).blocks = k.blocks := rfl
@[simp] theorem advance_ksbuf (k : Keystream) (n : Nat) : (advance k n).ksbuf = k.ksbuf := rfl

theorem advance_offset (k : Keystream) (n : Nat) (h : k.offset.val + n ≤ 64) :
    (advance k n).offset.val = k.offset.val + n := by
  simp only [advance]; omega

theorem advance_advance (k : Keystream) (m n : Nat) (h : k.offset.val + m ≤ 64) :
    advance (advance k m) n = advance k (m + n) := by
  simp only [advance, Keystream.mk.injEq, true_and, Fin.mk.injEq]; omega

theorem advance_zero (k : Keystream) : advance k 0 = k := by
  have := k.offset.isLt
  have h : (⟨min (k.offset.val + 0) 64, by omega⟩ : Fin 65) = k.offset := Fin.ext (by simp; omega)
  simp only [advance, h]

/-- The keystream with a byte left in the buffer: itself, or a refill of it. -/
def ready (k : Keystream) : Option Keystream := if k.offset.val = 64 then refill k else some k

/-- One byte of `CONSUME`. -/
def takeByte (k : Keystream) : Option (Byte × Keystream) :=
  match ready k with
  | none => none
  | some k1 => some (k1.ksbuf.toList.getD k1.offset.val 0, advance k1 1)

/-- `CONSUME` one byte at a time. -/
def byteLoop : Nat → Keystream → Option (Bytes × Keystream)
  | 0, k => some ([], k)
  | n + 1, k =>
    match takeByte k with
    | none => none
    | some (b, k1) =>
      match byteLoop n k1 with
      | none => none
      | some (bs, k2) => some (b :: bs, k2)

theorem ready_offset (k k1 : Keystream) (h : ready k = some k1) : k1.offset.val < 64 := by
  have hk := k.offset.isLt
  simp only [ready] at h
  split at h
  · obtain ⟨k', h1, -, -, -, -, -, -, h2⟩ | ⟨h1, -⟩ := refill_eq k
    · rw [h1] at h; cases h; omega
    · rw [h1] at h; cases h
  · cases h; omega

theorem ready_of_lt (k : Keystream) (h : k.offset.val < 64) : ready k = some k := by
  simp only [ready]; split
  · omega
  · rfl

/-- Inside one buffer, `byteLoop` copies a slice. -/
theorem byteLoop_in_buffer (m n : Nat) (k : Keystream) (h : k.offset.val + m ≤ 64) :
    byteLoop (m + n) k =
      match byteLoop n (advance k m) with
      | none => none
      | some (rest, k2) => some (memRead k.ksbuf.toList k.offset.val m ++ rest, k2) := by
  induction m generalizing k with
  | zero =>
    rw [advance_zero, Nat.zero_add]
    cases byteLoop n k with
    | none => rfl
    | some p => simp [memRead]
  | succ m ih =>
    have ho : (advance k 1).offset.val = k.offset.val + 1 := advance_offset k 1 (by omega)
    have hr := ready_of_lt k (by omega)
    rw [show m + 1 + n = (m + n) + 1 by omega]
    simp only [byteLoop, takeByte, hr]
    rw [ih (advance k 1) (by omega), advance_advance k 1 m (by omega), Nat.add_comm 1 m]
    cases byteLoop n (advance k (m + 1)) with
    | none => rfl
    | some p =>
      have hl : k.offset.val < k.ksbuf.toList.length := by simp; omega
      simp only [advance_ksbuf, ho, memRead, Option.some.injEq, Prod.mk.injEq, and_true]
      rw [List.drop_eq_getElem_cons hl, List.take_succ_cons, List.getD_eq_getElem?_getD,
        List.getElem?_eq_getElem hl]
      rfl

theorem consumeLoop_eq_byteLoop (fuel n : Nat) (k : Keystream) (h : n ≤ fuel) :
    consumeLoop fuel n k = byteLoop n k := by
  induction fuel generalizing n k with
  | zero =>
    obtain rfl : n = 0 := by omega
    rfl
  | succ fuel ih =>
    cases n with
    | zero => rfl
    | succ n =>
      simp only [consumeLoop]
      change (match ready k with
        | none => none
        | some k1 => _) = _
      cases hr : ready k with
      | none => simp only [byteLoop, takeByte, hr]
      | some k1 =>
        have ho := ready_offset k k1 hr
        have hm : 1 ≤ min (n + 1) (64 - k1.offset.val) := by omega
        have hb : byteLoop (n + 1) k = byteLoop (n + 1) k1 := by
          simp only [byteLoop, takeByte, hr, ready_of_lt k1 ho]
        rw [hb]
        generalize hmm : min (n + 1) (64 - k1.offset.val) = m at *
        have hs := byteLoop_in_buffer m (n + 1 - m) k1 (by omega)
        rw [show m + (n + 1 - m) = n + 1 by omega] at hs
        rw [hs]
        simp only [hmm, ih (n + 1 - m) (advance k1 m) (by omega)]
        all_goals (cases byteLoop (n + 1 - m) (advance k1 m) <;> rfl)

/-- `CONSUME` hands out one byte after the other (R143). -/
theorem consume_eq_byteLoop (n : Nat) (k : Keystream) : consume n k = byteLoop n k :=
  consumeLoop_eq_byteLoop n n k (Nat.le_refl n)

/-! ### One byte, many bytes: what is taken, what stands, what fails -/

/-- One byte can't be taken exactly when nothing is available (R141, R142). -/
theorem takeByte_none (k : Keystream) : takeByte k = none ↔ avail k = 0 := by
  have h1 := k.offset.isLt
  have h2 := k.blocks.isLt
  simp only [Config.maxBlocks] at h2
  unfold takeByte ready avail
  obtain ⟨k', hr, hb, -⟩ | ⟨hr, hb⟩ := refill_eq k <;> simp only [Config.maxBlocks] at hb ⊢ <;>
    by_cases ho : k.offset.val = 64 <;>
    simp only [ho, if_true, if_false, hr, reduceCtorEq, false_iff, true_iff] <;> omega

theorem takeByte_avail (k k1 : Keystream) (b : Byte) (h : takeByte k = some (b, k1)) :
    avail k = avail k1 + 1 ∧ k1.start = k.start ∧ k1.ctr0 = k.ctr0 := by
  have h1 := k.offset.isLt
  have h2 := k.blocks.isLt
  simp only [Config.maxBlocks] at h2
  unfold takeByte at h
  cases hr : ready k with
  | none => simp [hr] at h
  | some k2 =>
    have ho := ready_offset k k2 hr
    simp only [hr, Option.some.injEq, Prod.mk.injEq] at h
    obtain ⟨-, rfl⟩ := h
    have ha := advance_offset k2 1 (by omega)
    simp only [ready] at hr
    unfold avail
    simp only [Config.maxBlocks, advance_blocks, advance_start, advance_ctr0, ha]
    split at hr
    · obtain ⟨k', hr', hb, hs, h0, -, hb', -, ho'⟩ | ⟨hr', hb⟩ := refill_eq k
      · rw [hr'] at hr; cases hr
        simp only [Config.maxBlocks] at hb
        exact ⟨by omega, hs, h0⟩
      · rw [hr'] at hr; cases hr
    · cases hr; exact ⟨by omega, rfl, rfl⟩

/-- What `byteLoop` returns when it returns: as many bytes as asked for, taken off `AVAIL`, the start state and the base
counter untouched. -/
theorem byteLoop_spec (n : Nat) (k k' : Keystream) (o : Bytes) (h : byteLoop n k = some (o, k')) :
    o.length = n ∧ avail k = avail k' + n ∧ k'.start = k.start ∧ k'.ctr0 = k.ctr0 := by
  induction n generalizing k o with
  | zero => simp [byteLoop] at h; obtain ⟨rfl, rfl⟩ := h; simp
  | succ n ih =>
    simp only [byteLoop] at h
    cases ht : takeByte k with
    | none => simp [ht] at h
    | some p =>
      obtain ⟨b, k1⟩ := p
      simp only [ht] at h
      cases hb : byteLoop n k1 with
      | none => simp [hb] at h
      | some q =>
        obtain ⟨bs, k2⟩ := q
        simp only [hb, Option.some.injEq, Prod.mk.injEq] at h
        obtain ⟨rfl, rfl⟩ := h
        have h1 := takeByte_avail k k1 b ht
        have h2 := ih k1 bs hb
        exact ⟨by simp [h2.1], by omega, by rw [h2.2.2.1, h1.2.1], by rw [h2.2.2.2, h1.2.2]⟩

/-- Taking `m + n` bytes is taking `m` and then `n`. -/
theorem byteLoop_add (m n : Nat) (k : Keystream) :
    byteLoop (m + n) k =
      match byteLoop m k with
      | none => none
      | some (o1, k1) =>
        match byteLoop n k1 with
        | none => none
        | some (o2, k2) => some (o1 ++ o2, k2) := by
  induction m generalizing k with
  | zero => simp only [Nat.zero_add, byteLoop]; cases byteLoop n k <;> rfl
  | succ m ih =>
    rw [show m + 1 + n = (m + n) + 1 by omega]
    simp only [byteLoop]
    cases ht : takeByte k with
    | none => rfl
    | some p =>
      obtain ⟨b, k1⟩ := p
      simp only [ih k1]
      cases hb : byteLoop m k1 with
      | none => rfl
      | some q =>
        obtain ⟨o1, k2⟩ := q
        simp only
        cases byteLoop n k2 <;> rfl

/-- `XORSTREAM` through `byteLoop`. -/
theorem xorStream_eq_byteLoop (d : Bytes) (k : Keystream) :
    xorStream d k =
      match byteLoop d.length k with
      | none => none
      | some (o, k') => some (List.zipWith (fun a b => a ^^^ b) d o, k') := by
  unfold xorStream
  rw [consume_eq_byteLoop]
  all_goals (cases byteLoop d.length k <;> rfl)

/-- What `XORSTREAM` returns when it returns. -/
theorem xorStream_spec (d : Bytes) (k k' : Keystream) (o : Bytes) (h : xorStream d k = some (o, k')) :
    o.length = d.length ∧ k'.start = k.start ∧ k'.ctr0 = k.ctr0 ∧ avail k = avail k' + d.length := by
  rw [xorStream_eq_byteLoop] at h
  cases hb : byteLoop d.length k with
  | none => simp [hb] at h
  | some q =>
    obtain ⟨o', k2⟩ := q
    simp only [hb, Option.some.injEq, Prod.mk.injEq] at h
    obtain ⟨rfl, rfl⟩ := h
    obtain ⟨l1, a1, s1, c1⟩ := byteLoop_spec _ _ _ _ hb
    simp [l1, s1, c1]; omega

end Sys2Proof.Machine
end

