-- ==== Sys2Proof/Laws/State.lean ====
section
/-! SUPPORT. One lemma for each field of State under each named update, so that no later proof unfolds a record update. -/

namespace Sys2Proof.Machine

open Sys2Proof

/-! ### `respond` -/

@[simp] theorem respond_phase (st : Status) (v : U64) (o : Bytes) (s : State) : (respond st v o s).phase = s.phase := rfl
@[simp] theorem respond_mode (st : Status) (v : U64) (o : Bytes) (s : State) : (respond st v o s).mode = s.mode := rfl
@[simp] theorem respond_dir (st : Status) (v : U64) (o : Bytes) (s : State) : (respond st v o s).dir = s.dir := rfl
@[simp] theorem respond_aclosed (st : Status) (v : U64) (o : Bytes) (s : State) : (respond st v o s).aclosed = s.aclosed := rfl
@[simp] theorem respond_knvalid (st : Status) (v : U64) (o : Bytes) (s : State) : (respond st v o s).knvalid = s.knvalid := rfl
@[simp] theorem respond_key (st : Status) (v : U64) (o : Bytes) (s : State) : (respond st v o s).key = s.key := rfl
@[simp] theorem respond_nonce (st : Status) (v : U64) (o : Bytes) (s : State) : (respond st v o s).nonce = s.nonce := rfl
@[simp] theorem respond_ks (st : Status) (v : U64) (o : Bytes) (s : State) : (respond st v o s).ks = s.ks := rfl
@[simp] theorem respond_aadlen (st : Status) (v : U64) (o : Bytes) (s : State) : (respond st v o s).aadlen = s.aadlen := rfl
@[simp] theorem respond_datalen (st : Status) (v : U64) (o : Bytes) (s : State) : (respond st v o s).datalen = s.datalen := rfl
@[simp] theorem respond_auth (st : Status) (v : U64) (o : Bytes) (s : State) : (respond st v o s).auth = s.auth := rfl
@[simp] theorem respond_pend (st : Status) (v : U64) (o : Bytes) (s : State) : (respond st v o s).pend = s.pend := rfl
@[simp] theorem respond_cfg (st : Status) (v : U64) (o : Bytes) (s : State) : (respond st v o s).cfg = s.cfg := rfl
@[simp] theorem respond_draws (st : Status) (v : U64) (o : Bytes) (s : State) : (respond st v o s).draws = s.draws := rfl
@[simp] theorem respond_port (st : Status) (v : U64) (o : Bytes) (s : State) : (respond st v o s).port = s.port := rfl
@[simp] theorem respond_responses (st : Status) (v : U64) (o : Bytes) (s : State) : (respond st v o s).responses = ⟨st, v, o⟩ :: s.responses := rfl

/-! ### `accept` -/

@[simp] theorem accept_phase (s : State) : (accept s).phase = s.phase := rfl
@[simp] theorem accept_mode (s : State) : (accept s).mode = s.mode := rfl
@[simp] theorem accept_dir (s : State) : (accept s).dir = s.dir := rfl
@[simp] theorem accept_aclosed (s : State) : (accept s).aclosed = s.aclosed := rfl
@[simp] theorem accept_knvalid (s : State) : (accept s).knvalid = s.knvalid := rfl
@[simp] theorem accept_key (s : State) : (accept s).key = s.key := rfl
@[simp] theorem accept_nonce (s : State) : (accept s).nonce = s.nonce := rfl
@[simp] theorem accept_ks (s : State) : (accept s).ks = s.ks := rfl
@[simp] theorem accept_aadlen (s : State) : (accept s).aadlen = s.aadlen := rfl
@[simp] theorem accept_datalen (s : State) : (accept s).datalen = s.datalen := rfl
@[simp] theorem accept_auth (s : State) : (accept s).auth = s.auth := rfl
@[simp] theorem accept_pend (s : State) : (accept s).pend = s.pend := rfl
@[simp] theorem accept_cfg (s : State) : (accept s).cfg = s.cfg := rfl
@[simp] theorem accept_draws (s : State) : (accept s).draws = s.draws := rfl
@[simp] theorem accept_port (s : State) : (accept s).port = s.port.drop 1 := rfl
@[simp] theorem accept_responses (s : State) : (accept s).responses = s.responses := rfl

/-! ### `authInit` -/

@[simp] theorem authInit_phase (k : Vector Byte 32) (s : State) : (authInit k s).phase = s.phase := rfl
@[simp] theorem authInit_mode (k : Vector Byte 32) (s : State) : (authInit k s).mode = s.mode := rfl
@[simp] theorem authInit_dir (k : Vector Byte 32) (s : State) : (authInit k s).dir = s.dir := rfl
@[simp] theorem authInit_aclosed (k : Vector Byte 32) (s : State) : (authInit k s).aclosed = s.aclosed := rfl
@[simp] theorem authInit_knvalid (k : Vector Byte 32) (s : State) : (authInit k s).knvalid = s.knvalid := rfl
@[simp] theorem authInit_key (k : Vector Byte 32) (s : State) : (authInit k s).key = s.key := rfl
@[simp] theorem authInit_nonce (k : Vector Byte 32) (s : State) : (authInit k s).nonce = s.nonce := rfl
@[simp] theorem authInit_ks (k : Vector Byte 32) (s : State) : (authInit k s).ks = s.ks := rfl
@[simp] theorem authInit_aadlen (k : Vector Byte 32) (s : State) : (authInit k s).aadlen = s.aadlen := rfl
@[simp] theorem authInit_datalen (k : Vector Byte 32) (s : State) : (authInit k s).datalen = s.datalen := rfl
@[simp] theorem authInit_auth (k : Vector Byte 32) (s : State) : (authInit k s).auth = ⟨k, []⟩ := rfl
@[simp] theorem authInit_pend (k : Vector Byte 32) (s : State) : (authInit k s).pend = s.pend := rfl
@[simp] theorem authInit_cfg (k : Vector Byte 32) (s : State) : (authInit k s).cfg = s.cfg := rfl
@[simp] theorem authInit_draws (k : Vector Byte 32) (s : State) : (authInit k s).draws = s.draws := rfl
@[simp] theorem authInit_port (k : Vector Byte 32) (s : State) : (authInit k s).port = s.port := rfl
@[simp] theorem authInit_responses (k : Vector Byte 32) (s : State) : (authInit k s).responses = s.responses := rfl

/-! ### `authUpdate` -/

@[simp] theorem authUpdate_phase (b : Bytes) (s : State) : (authUpdate b s).phase = s.phase := rfl
@[simp] theorem authUpdate_mode (b : Bytes) (s : State) : (authUpdate b s).mode = s.mode := rfl
@[simp] theorem authUpdate_dir (b : Bytes) (s : State) : (authUpdate b s).dir = s.dir := rfl
@[simp] theorem authUpdate_aclosed (b : Bytes) (s : State) : (authUpdate b s).aclosed = s.aclosed := rfl
@[simp] theorem authUpdate_knvalid (b : Bytes) (s : State) : (authUpdate b s).knvalid = s.knvalid := rfl
@[simp] theorem authUpdate_key (b : Bytes) (s : State) : (authUpdate b s).key = s.key := rfl
@[simp] theorem authUpdate_nonce (b : Bytes) (s : State) : (authUpdate b s).nonce = s.nonce := rfl
@[simp] theorem authUpdate_ks (b : Bytes) (s : State) : (authUpdate b s).ks = s.ks := rfl
@[simp] theorem authUpdate_aadlen (b : Bytes) (s : State) : (authUpdate b s).aadlen = s.aadlen := rfl
@[simp] theorem authUpdate_datalen (b : Bytes) (s : State) : (authUpdate b s).datalen = s.datalen := rfl
@[simp] theorem authUpdate_auth (b : Bytes) (s : State) : (authUpdate b s).auth = ⟨s.auth.key, s.auth.msg ++ b⟩ := rfl
@[simp] theorem authUpdate_pend (b : Bytes) (s : State) : (authUpdate b s).pend = s.pend := rfl
@[simp] theorem authUpdate_cfg (b : Bytes) (s : State) : (authUpdate b s).cfg = s.cfg := rfl
@[simp] theorem authUpdate_draws (b : Bytes) (s : State) : (authUpdate b s).draws = s.draws := rfl
@[simp] theorem authUpdate_port (b : Bytes) (s : State) : (authUpdate b s).port = s.port := rfl
@[simp] theorem authUpdate_responses (b : Bytes) (s : State) : (authUpdate b s).responses = s.responses := rfl

/-! ### `authFinalize` -/

@[simp] theorem authFinalize_phase (s : State) : ((authFinalize s).2).phase = s.phase := by simp only [authFinalize]
@[simp] theorem authFinalize_mode (s : State) : ((authFinalize s).2).mode = s.mode := by simp only [authFinalize]
@[simp] theorem authFinalize_dir (s : State) : ((authFinalize s).2).dir = s.dir := by simp only [authFinalize]
@[simp] theorem authFinalize_aclosed (s : State) : ((authFinalize s).2).aclosed = s.aclosed := by simp only [authFinalize]
@[simp] theorem authFinalize_knvalid (s : State) : ((authFinalize s).2).knvalid = s.knvalid := by simp only [authFinalize]
@[simp] theorem authFinalize_key (s : State) : ((authFinalize s).2).key = s.key := by simp only [authFinalize]
@[simp] theorem authFinalize_nonce (s : State) : ((authFinalize s).2).nonce = s.nonce := by simp only [authFinalize]
@[simp] theorem authFinalize_ks (s : State) : ((authFinalize s).2).ks = s.ks := by simp only [authFinalize]
@[simp] theorem authFinalize_aadlen (s : State) : ((authFinalize s).2).aadlen = s.aadlen := by simp only [authFinalize]
@[simp] theorem authFinalize_datalen (s : State) : ((authFinalize s).2).datalen = s.datalen := by simp only [authFinalize]
@[simp] theorem authFinalize_auth (s : State) : ((authFinalize s).2).auth = freeAuth s.draws := by simp only [authFinalize]
@[simp] theorem authFinalize_pend (s : State) : ((authFinalize s).2).pend = s.pend := by simp only [authFinalize]
@[simp] theorem authFinalize_cfg (s : State) : ((authFinalize s).2).cfg = s.cfg := by simp only [authFinalize]
@[simp] theorem authFinalize_draws (s : State) : ((authFinalize s).2).draws = s.draws + 1 := by simp only [authFinalize]
@[simp] theorem authFinalize_port (s : State) : ((authFinalize s).2).port = s.port := by simp only [authFinalize]
@[simp] theorem authFinalize_responses (s : State) : ((authFinalize s).2).responses = s.responses := by simp only [authFinalize]

/-! ### `invalidate`: what stands, and the phase -/

@[simp] theorem invalidate_phase (s : State) : (invalidate s).phase = .uninit := rfl
@[simp] theorem invalidate_knvalid (s : State) : (invalidate s).knvalid = s.knvalid := rfl
@[simp] theorem invalidate_key (s : State) : (invalidate s).key = s.key := rfl
@[simp] theorem invalidate_nonce (s : State) : (invalidate s).nonce = s.nonce := rfl
@[simp] theorem invalidate_cfg (s : State) : (invalidate s).cfg = s.cfg := rfl
@[simp] theorem invalidate_draws (s : State) : (invalidate s).draws = s.draws + 1 := rfl
@[simp] theorem invalidate_port (s : State) : (invalidate s).port = s.port := rfl
@[simp] theorem invalidate_responses (s : State) : (invalidate s).responses = s.responses := rfl

/-! ### `raise`: what stands, the phase and the response -/

@[simp] theorem raise_phase (e : ErrorKind) (s : State) : (raise e s).phase = .uninit := rfl
@[simp] theorem raise_knvalid (e : ErrorKind) (s : State) : (raise e s).knvalid = s.knvalid := rfl
@[simp] theorem raise_key (e : ErrorKind) (s : State) : (raise e s).key = s.key := rfl
@[simp] theorem raise_nonce (e : ErrorKind) (s : State) : (raise e s).nonce = s.nonce := rfl
@[simp] theorem raise_cfg (e : ErrorKind) (s : State) : (raise e s).cfg = s.cfg := rfl
@[simp] theorem raise_draws (e : ErrorKind) (s : State) : (raise e s).draws = s.draws + 1 := rfl
@[simp] theorem raise_port (e : ErrorKind) (s : State) : (raise e s).port = s.port := rfl
@[simp] theorem raise_responses (e : ErrorKind) (s : State) : (raise e s).responses = ⟨.err e, 0, []⟩ :: s.responses := rfl

/-! ### `resetInput` -/

@[simp] theorem resetInput_phase (s : State) : (resetInput s).phase = .uninit := rfl
@[simp] theorem resetInput_knvalid (s : State) : (resetInput s).knvalid = false := rfl
@[simp] theorem resetInput_cfg (s : State) : (resetInput s).cfg = s.cfg := rfl
@[simp] theorem resetInput_draws (s : State) : (resetInput s).draws = s.draws + 1 := rfl
@[simp] theorem resetInput_port (s : State) : (resetInput s).port = s.port := rfl
@[simp] theorem resetInput_responses (s : State) : (resetInput s).responses = s.responses := rfl

@[simp] theorem authFinalize_tag (s : State) : (authFinalize s).1 = macOf s.cfg.mac s.auth.key s.auth.msg := by simp only [authFinalize]

/-! ### `closeAad` -/

theorem closeAad_of_closed (s : State) (h : s.aclosed = true) : closeAad s = s := by simp [closeAad, h]

theorem closeAad_of_open (s : State) (h : s.aclosed = false) :
    closeAad s = { authUpdate (zeros (pad16 s.aadlen.toNat)) s with aclosed := true } := by simp [closeAad, h]

@[simp] theorem closeAad_aclosed (s : State) : (closeAad s).aclosed = true := by
  by_cases h : s.aclosed = true <;> simp [closeAad, h]

@[simp] theorem closeAad_phase (s : State) : (closeAad s).phase = s.phase := by simp only [closeAad]; split <;> rfl
@[simp] theorem closeAad_mode (s : State) : (closeAad s).mode = s.mode := by simp only [closeAad]; split <;> rfl
@[simp] theorem closeAad_dir (s : State) : (closeAad s).dir = s.dir := by simp only [closeAad]; split <;> rfl
@[simp] theorem closeAad_knvalid (s : State) : (closeAad s).knvalid = s.knvalid := by simp only [closeAad]; split <;> rfl
@[simp] theorem closeAad_key (s : State) : (closeAad s).key = s.key := by simp only [closeAad]; split <;> rfl
@[simp] theorem closeAad_nonce (s : State) : (closeAad s).nonce = s.nonce := by simp only [closeAad]; split <;> rfl
@[simp] theorem closeAad_ks (s : State) : (closeAad s).ks = s.ks := by simp only [closeAad]; split <;> rfl
@[simp] theorem closeAad_aadlen (s : State) : (closeAad s).aadlen = s.aadlen := by simp only [closeAad]; split <;> rfl
@[simp] theorem closeAad_datalen (s : State) : (closeAad s).datalen = s.datalen := by simp only [closeAad]; split <;> rfl
@[simp] theorem closeAad_pend (s : State) : (closeAad s).pend = s.pend := by simp only [closeAad]; split <;> rfl
@[simp] theorem closeAad_cfg (s : State) : (closeAad s).cfg = s.cfg := by simp only [closeAad]; split <;> rfl
@[simp] theorem closeAad_draws (s : State) : (closeAad s).draws = s.draws := by simp only [closeAad]; split <;> rfl
@[simp] theorem closeAad_port (s : State) : (closeAad s).port = s.port := by simp only [closeAad]; split <;> rfl
@[simp] theorem closeAad_responses (s : State) : (closeAad s).responses = s.responses := by simp only [closeAad]; split <;> rfl

@[simp] theorem closeAad_authKey (s : State) : (closeAad s).auth.key = s.auth.key := by
  simp only [closeAad]; split <;> rfl

/-! ### `finishMac` -/

@[simp] theorem finishMac_phase (n : Nat) (s : State) : (finishMac n s).2.phase = s.phase := by simp only [finishMac, authFinalize_phase, authUpdate_phase]
@[simp] theorem finishMac_mode (n : Nat) (s : State) : (finishMac n s).2.mode = s.mode := by simp only [finishMac, authFinalize_mode, authUpdate_mode]
@[simp] theorem finishMac_dir (n : Nat) (s : State) : (finishMac n s).2.dir = s.dir := by simp only [finishMac, authFinalize_dir, authUpdate_dir]
@[simp] theorem finishMac_aclosed (n : Nat) (s : State) : (finishMac n s).2.aclosed = s.aclosed := by simp only [finishMac, authFinalize_aclosed, authUpdate_aclosed]
@[simp] theorem finishMac_knvalid (n : Nat) (s : State) : (finishMac n s).2.knvalid = s.knvalid := by simp only [finishMac, authFinalize_knvalid, authUpdate_knvalid]
@[simp] theorem finishMac_key (n : Nat) (s : State) : (finishMac n s).2.key = s.key := by simp only [finishMac, authFinalize_key, authUpdate_key]
@[simp] theorem finishMac_nonce (n : Nat) (s : State) : (finishMac n s).2.nonce = s.nonce := by simp only [finishMac, authFinalize_nonce, authUpdate_nonce]
@[simp] theorem finishMac_ks (n : Nat) (s : State) : (finishMac n s).2.ks = s.ks := by simp only [finishMac, authFinalize_ks, authUpdate_ks]
@[simp] theorem finishMac_aadlen (n : Nat) (s : State) : (finishMac n s).2.aadlen = s.aadlen := by simp only [finishMac, authFinalize_aadlen, authUpdate_aadlen]
@[simp] theorem finishMac_datalen (n : Nat) (s : State) : (finishMac n s).2.datalen = s.datalen := by simp only [finishMac, authFinalize_datalen, authUpdate_datalen]
@[simp] theorem finishMac_pend (n : Nat) (s : State) : (finishMac n s).2.pend = s.pend := by simp only [finishMac, authFinalize_pend, authUpdate_pend]
@[simp] theorem finishMac_cfg (n : Nat) (s : State) : (finishMac n s).2.cfg = s.cfg := by simp only [finishMac, authFinalize_cfg, authUpdate_cfg]
@[simp] theorem finishMac_port (n : Nat) (s : State) : (finishMac n s).2.port = s.port := by simp only [finishMac, authFinalize_port, authUpdate_port]
@[simp] theorem finishMac_responses (n : Nat) (s : State) : (finishMac n s).2.responses = s.responses := by simp only [finishMac, authFinalize_responses, authUpdate_responses]
@[simp] theorem finishMac_draws (n : Nat) (s : State) : (finishMac n s).2.draws = s.draws + 1 := by simp only [finishMac, authFinalize_draws, authUpdate_draws]
@[simp] theorem finishMac_auth (n : Nat) (s : State) : (finishMac n s).2.auth = freeAuth s.draws := by simp only [finishMac, authFinalize_auth, authUpdate_draws]

/-- What `FINISH_MAC` authenticates (44_aead_encrypt.md R195). -/
theorem finishMac_tag (n : Nat) (s : State) :
    (finishMac n s).1 = macOf s.cfg.mac s.auth.key
      (s.auth.msg ++ zeros (pad16 n) ++ (toLE64 s.aadlen ++ toLE64 (BitVec.ofNat 64 n))) := rfl

end Sys2Proof.Machine
end

