-- ==== Sys2Proof/Laws/Commands.lean ====
section
/-! SUPPORT. How UPDATE and FINALIZE reach their engine, said once: the prologue's three outcomes, the sizing table by
engine, and the dispatch past the prologue. Later proofs cite these and don't unfold `prologue` or `getSize`. -/

namespace Sys2Proof.Machine

open Sys2Proof

/-! ### The prologue and the sizing table -/

theorem prologue_uninit (data : Bytes) (cap : U64) (f : Bool) (s : State) (h : s.phase = .uninit) :
    prologue data cap f s = some .illegalState := by
  unfold prologue; rw [if_pos h]

theorem prologue_short (data : Bytes) (cap : U64) (f : Bool) (s : State) (h : s.phase ≠ .uninit)
    (hc : cap.toNat < getSize s data.length f) : prologue data cap f s = some .shortBuffer := by
  unfold prologue; rw [if_neg h, if_pos hc]

theorem prologue_passes (data : Bytes) (cap : U64) (f : Bool) (s : State) (h : s.phase ≠ .uninit)
    (hc : getSize s data.length f ≤ cap.toNat) : prologue data cap f s = none := by
  unfold prologue; rw [if_neg h, if_neg (Nat.not_lt.mpr hc)]

theorem getSize_stream (s : State) (n : Nat) (f : Bool) (h : engineOf s.mode s.dir = .stream) : getSize s n f = n := by
  unfold getSize; rw [h]

theorem getSize_aeadEnc (s : State) (n : Nat) (f : Bool) (h : engineOf s.mode s.dir = .aeadEnc) :
    getSize s n f = if f then n + 16 else n := by
  unfold getSize; rw [h]; cases f <;> rfl

theorem getSize_aeadDec (s : State) (n : Nat) (f : Bool) (h : engineOf s.mode s.dir = .aeadDec) :
    getSize s n f = if f then s.pend.length + n - 16 else 0 := by
  unfold getSize; rw [h]; cases f <;> rfl

theorem engineOf_stream (mode : Mode) (dir : Dir) : engineOf mode dir = .stream ↔ mode = .stream := by
  cases mode <;> cases dir <;> simp [engineOf]

theorem engineOf_aeadEnc (mode : Mode) (dir : Dir) : engineOf mode dir = .aeadEnc ↔ mode = .aead ∧ dir = .enc := by
  cases mode <;> cases dir <;> simp [engineOf]

theorem engineOf_aeadDec (mode : Mode) (dir : Dir) : engineOf mode dir = .aeadDec ↔ mode = .aead ∧ dir = .dec := by
  cases mode <;> cases dir <;> simp [engineOf]

/-! ### UPDATE and FINALIZE past, or stopped by, the prologue -/

theorem execUpdate_raise (data : Bytes) (cap : U64) (s : State) (e : ErrorKind)
    (h : prologue data cap false s = some e) : execUpdate data cap s = .next (raise e s) := by
  unfold execUpdate; rw [h]

theorem execUpdate_stream (data : Bytes) (cap : U64) (s : State) (h : prologue data cap false s = none)
    (he : engineOf s.mode s.dir = .stream) : execUpdate data cap s = .next (streamUpdate data s) := by
  unfold execUpdate; rw [h]; simp only [he]

theorem execUpdate_aeadEnc (data : Bytes) (cap : U64) (s : State) (h : prologue data cap false s = none)
    (he : engineOf s.mode s.dir = .aeadEnc) : execUpdate data cap s = .next (aeadEncUpdate data s) := by
  unfold execUpdate; rw [h]; simp only [he]

theorem execUpdate_aeadDec (data : Bytes) (cap : U64) (s : State) (h : prologue data cap false s = none)
    (he : engineOf s.mode s.dir = .aeadDec) : execUpdate data cap s = .next (aeadDecUpdate data s) := by
  unfold execUpdate; rw [h]; simp only [he]

theorem execFinalize_raise (data : Bytes) (cap : U64) (s : State) (e : ErrorKind)
    (h : prologue data cap true s = some e) : execFinalize data cap s = .next (raise e s) := by
  unfold execFinalize; rw [h]

theorem execFinalize_stream (data : Bytes) (cap : U64) (s : State) (h : prologue data cap true s = none)
    (he : engineOf s.mode s.dir = .stream) : execFinalize data cap s = .next (streamFinalize data s) := by
  unfold execFinalize; rw [h]; simp only [he]

theorem execFinalize_aeadEnc (data : Bytes) (cap : U64) (s : State) (h : prologue data cap true s = none)
    (he : engineOf s.mode s.dir = .aeadEnc) : execFinalize data cap s = .next (aeadEncFinalize data s) := by
  unfold execFinalize; rw [h]; simp only [he]

theorem execFinalize_aeadDec (data : Bytes) (cap : U64) (s : State) (h : prologue data cap true s = none)
    (he : engineOf s.mode s.dir = .aeadDec) : execFinalize data cap s = .next (aeadDecFinalize data s) := by
  unfold execFinalize; rw [h]; simp only [he]

/-! ### The engines' failing branches -/

theorem streamUpdate_exhausted (data : Bytes) (s : State) (h : avail s.ks < data.length) :
    streamUpdate data s = raise .counterExhausted s := by unfold streamUpdate; rw [if_pos h]

theorem streamFinalize_exhausted (data : Bytes) (s : State) (h : avail s.ks < data.length) :
    streamFinalize data s = raise .counterExhausted s := by unfold streamFinalize; rw [if_pos h]

theorem aeadEncUpdate_exhausted (data : Bytes) (s : State) (h : avail s.ks < data.length) :
    aeadEncUpdate data s = raise .counterExhausted s := by unfold aeadEncUpdate; rw [if_pos h]

theorem aeadEncFinalize_exhausted (data : Bytes) (s : State) (h : avail s.ks < data.length) :
    aeadEncFinalize data s = raise .counterExhausted s := by unfold aeadEncFinalize; rw [if_pos h]

/-! ### The engines' completing branches, for what `XORSTREAM` returns -/

theorem streamUpdate_completes (data out : Bytes) (s : State) (k : Keystream) (h : data.length ≤ avail s.ks)
    (hx : xorStream data s.ks = some (out, k)) :
    streamUpdate data s = respond .ok (len64 data) out { s with ks := k, phase := .data } := by
  unfold streamUpdate; rw [if_neg (Nat.not_lt.mpr h), hx]

theorem streamFinalize_completes (data out : Bytes) (s : State) (k : Keystream) (h : data.length ≤ avail s.ks)
    (hx : xorStream data s.ks = some (out, k)) :
    streamFinalize data s = respond .ok (len64 data) out { s with ks := k, phase := .uninit } := by
  unfold streamFinalize; rw [if_neg (Nat.not_lt.mpr h), hx]

theorem encryptAndFeed_some (data ct : Bytes) (s : State) (k : Keystream) (hx : xorStream data s.ks = some (ct, k)) :
    encryptAndFeed data s = some (ct, { authUpdate ct s with ks := k, datalen := s.datalen + len64 data }) := by
  unfold encryptAndFeed; rw [hx]

theorem aeadEncUpdate_completes (data ct : Bytes) (s : State) (k : Keystream) (h : data.length ≤ avail s.ks)
    (hx : xorStream data s.ks = some (ct, k)) :
    aeadEncUpdate data s = respond .ok (len64 data) ct
      { authUpdate ct (closeAad s) with ks := k, datalen := s.datalen + len64 data, phase := .data } := by
  have he := encryptAndFeed_some data ct (closeAad s) k (by rw [closeAad_ks]; exact hx)
  unfold aeadEncUpdate
  rw [if_neg (Nat.not_lt.mpr h), he]
  simp only [closeAad_datalen]

/-! ### The authenticator after `CLOSE_AAD` -/

theorem closeAad_auth (s : State) : (closeAad s).auth = ⟨s.auth.key, s.auth.msg ++ closingPad s⟩ := by
  unfold closeAad closingPad
  split
  · simp
  · rfl

theorem aeadEncFinalize_completes (data ct : Bytes) (s t : State) (k : Keystream) (h : data.length ≤ avail s.ks)
    (hx : xorStream data s.ks = some (ct, k))
    (ht : t = { authUpdate ct (closeAad s) with ks := k, datalen := s.datalen + len64 data }) :
    aeadEncFinalize data s =
      respond .ok (BitVec.ofNat 64 (data.length + 16)) (ct ++ (finishMac t.datalen.toNat t).1.toList)
        { (finishMac t.datalen.toNat t).2 with aadlen := 0, datalen := 0, phase := .uninit } := by
  have he := encryptAndFeed_some data ct (closeAad s) k (by rw [closeAad_ks]; exact hx)
  rw [closeAad_datalen] at he
  unfold aeadEncFinalize
  rw [if_neg (Nat.not_lt.mpr h), he, ← ht]

theorem aeadDecUpdate_overflows (data : Bytes) (s : State) (h : passesCapacity s data.length = true) :
    aeadDecUpdate data s = raise .overflow s := by unfold aeadDecUpdate; rw [if_pos h]

theorem aeadDecUpdate_completes (data : Bytes) (s : State) (h : passesCapacity s data.length = false) :
    aeadDecUpdate data s = respond .ok 0 [] { closeAad s with pend := s.pend ++ data, phase := .data } := by
  unfold aeadDecUpdate; rw [if_neg (by simp [h])]; simp only [closeAad_pend]

/-- The capacity test (45_aead_decrypt.md R213). -/
theorem passesCapacity_iff (s : State) (n : Nat) :
    passesCapacity s n = true ↔ ∃ cap, s.cfg.pendingCap = some cap ∧ cap < s.pend.length + n := by
  unfold passesCapacity
  cases s.cfg.pendingCap with
  | none => simp
  | some c => simp

/-! ### FINALIZE of engine AEAD_DEC, stage by stage (R214) -/

/-- The machine after it has fed the ciphertext and computed the tag (R214 steps 1 to 6). -/
def decVerified (data : Bytes) (s : State) : State :=
  (finishMac (receivedCt s data).length (authUpdate (receivedCt s data) (closeAad s))).2

theorem decVerified_ks (data : Bytes) (s : State) : (decVerified data s).ks = s.ks := by
  unfold decVerified; simp

/-- The tag that is compared is `computedTag`. -/
theorem computedTag_eq (data : Bytes) (s : State) :
    (finishMac (receivedCt s data).length (authUpdate (receivedCt s data) (closeAad s))).1 = computedTag s data := by
  rw [finishMac_tag]
  simp only [authUpdate_auth, authUpdate_cfg, authUpdate_aadlen, closeAad_cfg, closeAad_aadlen, closeAad_auth,
    computedTag, macEnd, List.append_assoc]

theorem aeadDecFinalize_eq (data : Bytes) (s : State) :
    aeadDecFinalize data s =
      if (received s data).length < 16 then raise .badTag (closeAad s)
      else if !tagEq (computedTag s data).toList (receivedTag s data) then raise .badTag (decVerified data s)
      else if avail s.ks < (receivedCt s data).length then raise .counterExhausted (decVerified data s)
      else match xorStream (receivedCt s data) s.ks with
        | none => raise .counterExhausted (decVerified data s)
        | some (pt, k) =>
          respond .ok (len64 (receivedCt s data)) pt
            { decVerified data s with ks := k, aadlen := 0, datalen := 0, pend := [], phase := .uninit } := by
  have hb : (closeAad s).pend ++ data = received s data := by rw [closeAad_pend]; rfl
  have hc : memRead (received s data) 0 ((received s data).length - 16) = receivedCt s data := by
    unfold memRead receivedCt; rw [List.drop_zero]
  unfold aeadDecFinalize
  simp only [hb, hc, computedTag_eq]
  by_cases hl : (received s data).length < 16
  · rw [if_pos hl, if_pos hl]
  · have ht : memRead (received s data) ((received s data).length - 16) 16 = receivedTag s data := by
      unfold memRead receivedTag
      exact List.take_of_length_le (by rw [List.length_drop]; omega)
    rw [if_neg hl, if_neg hl, ht]
    have hk : (finishMac (receivedCt s data).length (authUpdate (receivedCt s data) (closeAad s))).2.ks = s.ks :=
      decVerified_ks data s
    rw [hk]
    unfold decVerified
    cases xorStream (receivedCt s data) s.ks <;> rfl

/-! ### INIT, UPDATE_AAD, GET_OUTPUT_SIZE -/

theorem nonceReused_iff (key nonce : Bytes) (s : State) :
    nonceReused key nonce s = true ↔ s.knvalid = true ∧ key = s.key.toList ∧ nonce = s.nonce.toList := by
  unfold nonceReused; simp only [Bool.and_eq_true, decide_eq_true_eq]; exact and_assoc

theorem initLengthsOk_iff (key nonce : Bytes) :
    initLengthsOk key nonce = true ↔ key.length = 32 ∧ nonce.length = 12 := by
  unfold initLengthsOk; simp only [Bool.and_eq_true, decide_eq_true_eq]

theorem execInit_invalidKey (dir : Dir) (mode : Mode) (key nonce : Bytes) (ictr : Word) (s : State)
    (h : key.length ≠ 32 ∨ nonce.length ≠ 12) :
    execInit dir mode key nonce ictr s = .next (raise .invalidKey s) := by
  have hl : initLengthsOk key nonce = false := by
    rw [← Bool.not_eq_true, initLengthsOk_iff]; omega
  unfold execInit; rw [hl]; rfl

theorem execInit_nonceReuse (dir : Dir) (mode : Mode) (key nonce : Bytes) (ictr : Word) (s : State)
    (h1 : key.length = 32 ∧ nonce.length = 12)
    (h2 : s.knvalid = true ∧ key = s.key.toList ∧ nonce = s.nonce.toList) :
    execInit dir mode key nonce ictr s = .next (raise .nonceReuse s) := by
  unfold execInit
  rw [(initLengthsOk_iff key nonce).mpr h1, (nonceReused_iff key nonce s).mpr h2]; rfl

theorem execInit_stream (dir : Dir) (key nonce : Bytes) (ictr : Word) (s : State) (h : initAccepted key nonce s) :
    execInit dir .stream key nonce ictr s =
      .next (respond .ok 0 [] { initStream ictr (initCommon dir .stream key nonce s) with phase := .initialized }) := by
  have h2 : nonceReused key nonce s = false := by
    rw [← Bool.not_eq_true, nonceReused_iff]; exact h.2.2
  unfold execInit; rw [(initLengthsOk_iff key nonce).mpr ⟨h.1, h.2.1⟩, h2]; rfl

theorem execInit_aead (dir : Dir) (key nonce : Bytes) (ictr : Word) (s : State) (h : initAccepted key nonce s) :
    execInit dir .aead key nonce ictr s =
      .next (respond .ok 0 [] { initAead (initCommon dir .aead key nonce s) with phase := .initialized }) := by
  have h2 : nonceReused key nonce s = false := by
    rw [← Bool.not_eq_true, nonceReused_iff]; exact h.2.2
  unfold execInit; rw [(initLengthsOk_iff key nonce).mpr ⟨h.1, h.2.1⟩, h2]; rfl

theorem execUpdateAad_illegal (data : Bytes) (s : State) (h : s.phase = .uninit ∨ s.mode ≠ .aead ∨ s.phase = .data) :
    execUpdateAad data s = .next (raise .illegalState s) := by
  unfold execUpdateAad
  split
  · rfl
  · split
    · rfl
    · rw [if_pos]
      rename_i h1 h2
      exact (h.resolve_left h1).resolve_left h2

theorem execUpdateAad_legal (data : Bytes) (s : State) (h1 : s.mode = .aead)
    (h2 : s.phase = .initialized ∨ s.phase = .aad) :
    execUpdateAad data s =
      if Config.maxU64 < s.aadlen.toNat + data.length then .next (raise .overflow s)
      else .next (respond .ok 0 [] { authUpdate data s with aadlen := s.aadlen + len64 data, phase := .aad }) := by
  have h3 : s.phase ≠ .uninit := by rcases h2 with h | h <;> rw [h] <;> decide
  have h4 : s.phase ≠ .data := by rcases h2 with h | h <;> rw [h] <;> decide
  unfold execUpdateAad aadOverflows
  rw [if_neg h3, if_neg (not_not.mpr h1), if_neg h4]
  simp only [decide_eq_true_eq]

theorem execGetOutputSize_illegal (n : U64) (f : Bool) (s : State) (h : s.phase = .uninit) :
    execGetOutputSize n f s = .next (raise .illegalState s) := by unfold execGetOutputSize; rw [if_pos h]

theorem execGetOutputSize_session (n : U64) (f : Bool) (s : State) (h : s.phase ≠ .uninit) :
    execGetOutputSize n f s =
      if Config.maxU64 < getSize s n.toNat f then .next (raise .overflow s)
      else .next (respond .ok (BitVec.ofNat 64 (getSize s n.toNat f)) [] s) := by
  unfold execGetOutputSize; rw [if_neg h]

end Sys2Proof.Machine
end

