-- ==== Sys2Proof/Laws/PerInstr.lean ====
section
/-! SUPPORT. Statements made per instruction. Family `EncodeSelects`: the header word of an encoded command selects that
command's own row of the opcode map (30_encoding.md R93, R98). -/

namespace Sys2Proof

/-- The row of the opcode map that a command belongs to (R98). -/
def Instr.op : Instr → Op
  | .init _ _ _ _ _ => .init
  | .updateAad _ => .updateAad
  | .update _ _ => .update
  | .finalize _ _ => .finalize
  | .getOutputSize _ _ => .getOutputSize

/-- The header of a frame that begins with an encoded word is that word. -/
theorem headerOf_toLE32 (w : Word) (rest : Bytes) : headerOf (toLE32 w ++ rest) = w := by
  rw [headerOf, memRead_append_left _ _ _ (toLE32_length w), le32_toLE32]

namespace Laws.EncodeSelects

/-- The encoded command's header selects its own row. -/
def Statement (i : Instr) : Prop := selectOp (headerOf (encode i)) = some i.op

theorem init (dir : Dir) (mode : Mode) (key nonce : Bytes) (ictr : Word) :
    Statement (.init dir mode key nonce ictr) := by
  simp only [Statement, encode, List.append_assoc, headerOf_toLE32, Instr.op]
  cases dir <;> cases mode <;> decide

theorem updateAad (data : Bytes) : Statement (.updateAad data) := by
  simp only [Statement, encode, List.append_assoc, headerOf_toLE32, Instr.op]; decide

theorem update (data : Bytes) (outcap : U64) : Statement (.update data outcap) := by
  simp only [Statement, encode, List.append_assoc, headerOf_toLE32, Instr.op]; decide

theorem finalize (data : Bytes) (outcap : U64) : Statement (.finalize data outcap) := by
  simp only [Statement, encode, List.append_assoc, headerOf_toLE32, Instr.op]; decide

theorem getOutputSize (n : U64) (isfinal : Bool) : Statement (.getOutputSize n isfinal) := by
  simp only [Statement, encode, headerOf_toLE32, Instr.op]
  cases isfinal <;> decide

end Laws.EncodeSelects

end Sys2Proof
end

