-- ==== Sys2Proof/Laws/Steps.lean ====
section
/-! SUPPORT. What a command can do, said once: it raises (`exec_cases`, first case), or it completes in one of the ten
ways of `Done`. Later proofs take `exec_cases` apart and don't unfold the meanings. -/

namespace Sys2Proof.Machine

open Sys2Proof

/-- `t` holds what an error leaves standing in `s`: the reuse guard's record, the configuration, the port and the
responses (60_exceptions.md R240). -/
structure SameRecord (s t : State) : Prop where
  key : t.key = s.key
  nonce : t.nonce = s.nonce
  knvalid : t.knvalid = s.knvalid
  cfg : t.cfg = s.cfg
  port : t.port = s.port
  responses : t.responses = s.responses

theorem SameRecord.self (s : State) : SameRecord s s := ⟨rfl, rfl, rfl, rfl, rfl, rfl⟩

theorem SameRecord.closed (s : State) : SameRecord s (closeAad s) := by constructor <;> simp

theorem SameRecord.verified (data : Bytes) (s : State) : SameRecord s (decVerified data s) := by
  constructor <;> simp [decVerified]

/-- The ten ways in which a command completes, each with its whole next state. -/
inductive Done : Instr → State → State → Prop
  | initStream (dir key nonce ictr s) (h : initAccepted key nonce s) :
    Done (.init dir .stream key nonce ictr) s
      (respond .ok 0 [] { initStream ictr (initCommon dir .stream key nonce s) with phase := .initialized })
  | initAead (dir key nonce ictr s) (h : initAccepted key nonce s) :
    Done (.init dir .aead key nonce ictr) s
      (respond .ok 0 [] { initAead (initCommon dir .aead key nonce s) with phase := .initialized })
  | updateAad (data s) (hm : s.mode = .aead) (hp : s.phase = .initialized ∨ s.phase = .aad)
      (hl : s.aadlen.toNat + data.length ≤ Config.maxU64) :
    Done (.updateAad data) s
      (respond .ok 0 [] { authUpdate data s with aadlen := s.aadlen + len64 data, phase := .aad })
  | query (n f s) (hp : s.phase ≠ .uninit) (hv : getSize s n.toNat f ≤ Config.maxU64) :
    Done (.getOutputSize n f) s (respond .ok (BitVec.ofNat 64 (getSize s n.toNat f)) [] s)
  | streamUpdate (data cap s out k) (hp : s.phase ≠ .uninit) (he : engineOf s.mode s.dir = .stream)
      (hc : data.length ≤ cap.toNat) (ha : data.length ≤ avail s.ks) (hx : xorStream data s.ks = some (out, k)) :
    Done (.update data cap) s (respond .ok (len64 data) out { s with ks := k, phase := .data })
  | streamFinalize (data cap s out k) (hp : s.phase ≠ .uninit) (he : engineOf s.mode s.dir = .stream)
      (hc : data.length ≤ cap.toNat) (ha : data.length ≤ avail s.ks) (hx : xorStream data s.ks = some (out, k)) :
    Done (.finalize data cap) s (respond .ok (len64 data) out { s with ks := k, phase := .uninit })
  | encUpdate (data cap s out k) (hp : s.phase ≠ .uninit) (he : engineOf s.mode s.dir = .aeadEnc)
      (hc : data.length ≤ cap.toNat) (ha : data.length ≤ avail s.ks) (hx : xorStream data s.ks = some (out, k)) :
    Done (.update data cap) s (respond .ok (len64 data) out
      { authUpdate out (closeAad s) with ks := k, datalen := s.datalen + len64 data, phase := .data })
  | encFinalize (data cap s out k t) (hp : s.phase ≠ .uninit) (he : engineOf s.mode s.dir = .aeadEnc)
      (hc : data.length + 16 ≤ cap.toNat) (ha : data.length ≤ avail s.ks) (hx : xorStream data s.ks = some (out, k))
      (ht : t = { authUpdate out (closeAad s) with ks := k, datalen := s.datalen + len64 data }) :
    Done (.finalize data cap) s
      (respond .ok (BitVec.ofNat 64 (data.length + 16)) (out ++ (finishMac t.datalen.toNat t).1.toList)
        { (finishMac t.datalen.toNat t).2 with aadlen := 0, datalen := 0, phase := .uninit })
  | decUpdate (data cap s) (hp : s.phase ≠ .uninit) (he : engineOf s.mode s.dir = .aeadDec)
      (hc : passesCapacity s data.length = false) :
    Done (.update data cap) s (respond .ok 0 [] { closeAad s with pend := s.pend ++ data, phase := .data })
  | decFinalize (data cap s out k) (hp : s.phase ≠ .uninit) (he : engineOf s.mode s.dir = .aeadDec)
      (hc : s.pend.length + data.length - 16 ≤ cap.toNat) (hl : 16 ≤ (received s data).length)
      (ht : tagEq (computedTag s data).toList (receivedTag s data) = true)
      (ha : (receivedCt s data).length ≤ avail s.ks) (hx : xorStream (receivedCt s data) s.ks = some (out, k)) :
    Done (.finalize data cap) s (respond .ok (len64 (receivedCt s data)) out
      { decVerified data s with ks := k, aadlen := 0, datalen := 0, pend := [], phase := .uninit })

/-- What one command can do. -/
def Completes (i : Instr) (s : State) : Prop :=
  (∃ e s1, exec i s = .next (raise e s1) ∧ SameRecord s s1) ∨ ∃ t, exec i s = .next t ∧ Done i s t

theorem raises_from {i : Instr} {s s1 : State} {e : ErrorKind} (h : exec i s = .next (raise e s1))
    (hs : SameRecord s s1) : Completes i s := .inl ⟨e, s1, h, hs⟩

theorem completes_to {i : Instr} {s t : State} (h : exec i s = .next t) (hd : Done i s t) : Completes i s :=
  .inr ⟨t, h, hd⟩

theorem exec_cases_init (dir : Dir) (mode : Mode) (key nonce : Bytes) (ictr : Word) (s : State) :
    Completes (.init dir mode key nonce ictr) s := by
  by_cases hl : key.length = 32 ∧ nonce.length = 12
  · by_cases hr : s.knvalid = true ∧ key = s.key.toList ∧ nonce = s.nonce.toList
    · exact raises_from (execInit_nonceReuse dir mode key nonce ictr s hl hr) (.self s)
    · have ha : initAccepted key nonce s := ⟨hl.1, hl.2, hr⟩
      cases mode with
      | stream => exact completes_to (execInit_stream dir key nonce ictr s ha) (.initStream dir key nonce ictr s ha)
      | aead => exact completes_to (execInit_aead dir key nonce ictr s ha) (.initAead dir key nonce ictr s ha)
  · exact raises_from (execInit_invalidKey dir mode key nonce ictr s (by omega)) (.self s)

theorem exec_cases_updateAad (data : Bytes) (s : State) : Completes (.updateAad data) s := by
  by_cases hi : s.phase = .uninit ∨ s.mode ≠ .aead ∨ s.phase = .data
  · exact raises_from (execUpdateAad_illegal data s hi) (.self s)
  · simp only [not_or, not_not, ne_eq] at hi
    have hp : s.phase = .initialized ∨ s.phase = .aad := by cases h : s.phase <;> simp_all
    have he := execUpdateAad_legal data s hi.2.1 hp
    split at he
    · exact raises_from he (.self s)
    · exact completes_to he (.updateAad data s hi.2.1 hp (by omega))

theorem exec_cases_query (n : U64) (f : Bool) (s : State) : Completes (.getOutputSize n f) s := by
  by_cases hp : s.phase = .uninit
  · exact raises_from (execGetOutputSize_illegal n f s hp) (.self s)
  · have he := execGetOutputSize_session n f s hp
    split at he
    · exact raises_from he (.self s)
    · exact completes_to he (.query n f s hp (by omega))

theorem exec_cases_update (data : Bytes) (cap : U64) (s : State) : Completes (.update data cap) s := by
  by_cases hp : s.phase = .uninit
  · exact raises_from (execUpdate_raise data cap s _ (prologue_uninit data cap false s hp)) (.self s)
  by_cases hc : cap.toNat < getSize s data.length false
  · exact raises_from (execUpdate_raise data cap s _ (prologue_short data cap false s hp hc)) (.self s)
  have hpro := prologue_passes data cap false s hp (by omega)
  cases he : engineOf s.mode s.dir with
  | stream =>
    have e := execUpdate_stream data cap s hpro he
    rw [getSize_stream s _ _ he] at hc
    by_cases ha : avail s.ks < data.length
    · rw [streamUpdate_exhausted data s ha] at e; exact raises_from e (.self s)
    cases hx : xorStream data s.ks with
    | none =>
      unfold streamUpdate at e; rw [if_neg ha, hx] at e; exact raises_from e (.self s)
    | some p =>
      rw [streamUpdate_completes data p.1 s p.2 (by omega) hx] at e
      exact completes_to e (.streamUpdate data cap s p.1 p.2 hp he (by omega) (by omega) hx)
  | aeadEnc =>
    have e := execUpdate_aeadEnc data cap s hpro he
    rw [getSize_aeadEnc s _ _ he] at hc
    simp only [Bool.false_eq_true, if_false] at hc
    by_cases ha : avail s.ks < data.length
    · rw [aeadEncUpdate_exhausted data s ha] at e; exact raises_from e (.self s)
    cases hx : xorStream data s.ks with
    | none =>
      unfold aeadEncUpdate encryptAndFeed at e
      rw [if_neg ha, closeAad_ks, hx] at e; exact raises_from e (.self s)
    | some p =>
      rw [aeadEncUpdate_completes data p.1 s p.2 (by omega) hx] at e
      exact completes_to e (.encUpdate data cap s p.1 p.2 hp he (by omega) (by omega) hx)
  | aeadDec =>
    have e := execUpdate_aeadDec data cap s hpro he
    cases h : passesCapacity s data.length with
    | true => rw [aeadDecUpdate_overflows data s h] at e; exact raises_from e (.self s)
    | false =>
      rw [aeadDecUpdate_completes data s h] at e
      exact completes_to e (.decUpdate data cap s hp he h)

theorem exec_cases_finalize (data : Bytes) (cap : U64) (s : State) : Completes (.finalize data cap) s := by
  by_cases hp : s.phase = .uninit
  · exact raises_from (execFinalize_raise data cap s _ (prologue_uninit data cap true s hp)) (.self s)
  by_cases hc : cap.toNat < getSize s data.length true
  · exact raises_from (execFinalize_raise data cap s _ (prologue_short data cap true s hp hc)) (.self s)
  have hpro := prologue_passes data cap true s hp (by omega)
  cases he : engineOf s.mode s.dir with
  | stream =>
    have e := execFinalize_stream data cap s hpro he
    rw [getSize_stream s _ _ he] at hc
    by_cases ha : avail s.ks < data.length
    · rw [streamFinalize_exhausted data s ha] at e; exact raises_from e (.self s)
    cases hx : xorStream data s.ks with
    | none =>
      unfold streamFinalize at e; rw [if_neg ha, hx] at e; exact raises_from e (.self s)
    | some p =>
      rw [streamFinalize_completes data p.1 s p.2 (by omega) hx] at e
      exact completes_to e (.streamFinalize data cap s p.1 p.2 hp he (by omega) (by omega) hx)
  | aeadEnc =>
    have e := execFinalize_aeadEnc data cap s hpro he
    rw [getSize_aeadEnc s _ _ he] at hc
    simp only [if_true] at hc
    by_cases ha : avail s.ks < data.length
    · rw [aeadEncFinalize_exhausted data s ha] at e; exact raises_from e (.self s)
    cases hx : xorStream data s.ks with
    | none =>
      unfold aeadEncFinalize encryptAndFeed at e
      rw [if_neg ha, closeAad_ks, hx] at e; exact raises_from e (.self s)
    | some p =>
      rw [aeadEncFinalize_completes data p.1 s _ p.2 (by omega) hx rfl] at e
      exact completes_to e (.encFinalize data cap s p.1 p.2 _ hp he (by omega) (by omega) hx rfl)
  | aeadDec =>
    have e := execFinalize_aeadDec data cap s hpro he
    rw [getSize_aeadDec s _ _ he] at hc
    simp only [if_true] at hc
    rw [aeadDecFinalize_eq] at e
    by_cases hl : (received s data).length < 16
    · rw [if_pos hl] at e; exact raises_from e (.closed s)
    rw [if_neg hl] at e
    cases ht : tagEq (computedTag s data).toList (receivedTag s data) with
    | false => rw [ht, if_pos (by simp)] at e; exact raises_from e (.verified data s)
    | true =>
      rw [ht, if_neg (by simp)] at e
      by_cases ha : avail s.ks < (receivedCt s data).length
      · rw [if_pos ha] at e; exact raises_from e (.verified data s)
      rw [if_neg ha] at e
      cases hx : xorStream (receivedCt s data) s.ks with
      | none => rw [hx] at e; exact raises_from e (.verified data s)
      | some p =>
        rw [hx] at e
        exact completes_to e (.decFinalize data cap s p.1 p.2 hp he (by omega) (by omega) ht (by omega) hx)

/-- What any command can do: raise an error with the reuse guard's record untouched, or complete as `Done` says. -/
theorem exec_cases (i : Instr) (s : State) : Completes i s := by
  cases i with
  | init dir mode key nonce ictr => exact exec_cases_init dir mode key nonce ictr s
  | updateAad data => exact exec_cases_updateAad data s
  | update data cap => exact exec_cases_update data cap s
  | finalize data cap => exact exec_cases_finalize data cap s
  | getOutputSize n f => exact exec_cases_query n f s

end Sys2Proof.Machine
end

