-- ==== Sys2Proof/Tests/Slice0.lean ====
section
/-! SUPPORT. The model's own tests: ill-formed terms that WellFormed refuses, decoding of words written out from
30_encoding.md, the derived vectors of 95_test_vectors.md (V1 to V20), one step each; and for every obligation with
hypotheses a witness that meets them. Expected values are the spec's, never the model's. -/

open Sys2Proof Sys2Proof.Machine

namespace Sys2Proof.Tests

/-! ## WellFormed smoke: one ill-formed term for each check (R94 to R96) -/

theorem test_wf_init_key_too_long (nonce : Bytes) :
    (Instr.init .enc .stream (List.replicate (2 ^ 32) 0) nonce 0).wellFormed = false := by
  simp only [Instr.wellFormed, List.length_replicate, Nat.lt_irrefl, decide_false, Bool.false_and]

theorem test_wf_init_nonce_too_long (key : Bytes) :
    (Instr.init .enc .stream key (List.replicate (2 ^ 32) 0) 0).wellFormed = false := by
  simp only [Instr.wellFormed, List.length_replicate, Nat.lt_irrefl, decide_false, Bool.and_false]

theorem test_wf_aad_too_long : (Instr.updateAad (List.replicate (2 ^ 64) 0)).wellFormed = false := by
  simp only [Instr.wellFormed, List.length_replicate, Nat.lt_irrefl, decide_false]

theorem test_wf_update_too_long : (Instr.update (List.replicate (2 ^ 64) 0) 0).wellFormed = false := by
  simp only [Instr.wellFormed, List.length_replicate, Nat.lt_irrefl, decide_false]

theorem test_wf_finalize_too_long : (Instr.finalize (List.replicate (2 ^ 64) 0) 0).wellFormed = false := by
  simp only [Instr.wellFormed, List.length_replicate, Nat.lt_irrefl, decide_false]

/-! ## Decoding (V19, R108; the words are the spec's own bytes) -/

theorem test_decode_query : decode [0x05, 0x01, 0, 0, 0x64, 0, 0, 0, 0, 0, 0, 0] = .instr (.getOutputSize 100 true) := by
  decide

theorem test_decode_query_nonfinal :
    decode [0x05, 0x00, 0, 0, 0x64, 0, 0, 0, 0, 0, 0, 0] = .instr (.getOutputSize 100 false) := by decide

theorem test_decode_aad :
    decode [0x02, 0, 0, 0, 4, 0, 0, 0, 0, 0, 0, 0, 0x50, 0x51, 0x52, 0x53] =
      .instr (.updateAad [0x50, 0x51, 0x52, 0x53]) := by decide

theorem test_decode_update :
    decode [0x03, 0, 0, 0, 2, 0, 0, 0, 0, 0, 0, 0, 2, 0, 0, 0, 0, 0, 0, 0, 0xaa, 0xbb] =
      .instr (.update [0xaa, 0xbb] 2) := by decide

theorem test_decode_finalize :
    decode [0x04, 0, 0, 0, 0, 0, 0, 0, 0, 0, 0, 0, 0xff, 0xff, 0xff, 0xff, 0xff, 0xff, 0xff, 0xff] =
      .instr (.finalize [] 0xffffffffffffffff) := by decide

/-- R108's INIT header, with a key of one byte and a nonce of two so that every operand differs. -/
theorem test_decode_init :
    decode [0x01, 0x03, 0, 0, 1, 0, 0, 0, 2, 0, 0, 0, 7, 0, 0, 0, 0xaa, 0xbb, 0xcc] =
      .instr (.init .dec .aead [0xaa] [0xbb, 0xcc] 7) := by decide

theorem test_decode_illegal_bit9 :
    decode [0x05, 0x02, 0, 0, 0x64, 0, 0, 0, 0, 0, 0, 0] = .illegal .mustBeZeroBit := by decide

theorem test_decode_illegal_opc0 : decode [0, 0, 0, 0, 0, 0, 0, 0, 0, 0, 0, 0] = .illegal .reservedOpcode := by decide

theorem test_decode_illegal_opc6 : decode [6, 0, 0, 0, 0, 0, 0, 0, 0, 0, 0, 0] = .illegal .reservedOpcode := by decide

theorem test_decode_illegal_bit8 : decode [2, 1, 0, 0, 0, 0, 0, 0, 0, 0, 0, 0] = .illegal .mustBeZeroBit := by decide

theorem test_decode_illegal_bit16 :
    decode [5, 0, 1, 0, 0x64, 0, 0, 0, 0, 0, 0, 0] = .illegal .mustBeZeroBit := by decide

theorem test_decode_illegal_too_short :
    decode [2, 0, 0, 0, 4, 0, 0, 0, 0, 0, 0, 0, 0x50, 0x51, 0x52] = .illegal .lengthLaw := by decide

theorem test_decode_illegal_too_long :
    decode [2, 0, 0, 0, 4, 0, 0, 0, 0, 0, 0, 0, 0x50, 0x51, 0x52, 0x53, 0x54] = .illegal .lengthLaw := by decide

theorem test_decode_illegal_no_header : decode [5, 1, 0] = .illegal .shorterThanHeader := by decide

theorem test_decode_illegal_no_fixed_part :
    decode [3, 0, 0, 0, 0, 0, 0, 0, 0, 0, 0, 0] = .illegal .shorterThanFixedPart := by decide

/-- The table's five words decode to the five commands. -/
theorem test_table_words :
    decodeTableWord 32 0x00000001 = some (.init .enc .stream [] [] 0) ∧
    decodeTableWord 32 0x00000002 = some (.updateAad []) ∧ decodeTableWord 32 0x00000003 = some (.update [] 0) ∧
    decodeTableWord 32 0x00000004 = some (.finalize [] 0) ∧
    decodeTableWord 32 0x00000005 = some (.getOutputSize 0 false) ∧ decodeTableWord 32 0x00000006 = none := by decide

/-- The first step from reset runs the fetched word: `GET_OUTPUT_SIZE` without a session (R170, R234). -/
theorem test_withFetchWord :
    step (State.reset.withFetchWord 32 0x00000005) = .next (raise .illegalState State.reset) := rfl

/-! ## The Block Transform (V1 to V4) -/

theorem test_v1_quarter :
    quarter ⟨0x11111111, 0x01020304, 0x9b8d6f43, 0x01234567⟩ =
      ⟨0xea2a92f4, 0xcb1cf8ce, 0x4581472e, 0x5881c4bb⟩ := by decide

theorem test_v1b_quarter_wraps :
    quarter ⟨0xffffffff, 0xffffffff, 0xffffffff, 0xffffffff⟩ =
      ⟨0xf0000ffd, 0x88790878, 0x0110fdef, 0x010ffdf0⟩ := by decide

theorem test_v1c_qr :
    qr 2 7 8 13 #v[0x879531e0, 0xc5ecf37d, 0x516461b1, 0xc9a62f8a, 0x44c20ef3, 0x3390af7f, 0xd9fc690b, 0x2a5f714c,
        0x53372767, 0xb00a5631, 0x974c541a, 0x359e9963, 0x5c971061, 0x3d631689, 0x2098d9d6, 0x91dbd320] =
      #v[0x879531e0, 0xc5ecf37d, 0xbdb886dc, 0xc9a62f8a, 0x44c20ef3, 0x3390af7f, 0xd9fc690b, 0xcfacafd2,
        0xe46bea80, 0xb00a5631, 0x974c541a, 0x359e9963, 0x5c971061, 0xccc07c79, 0x2098d9d6, 0x91dbd320] := by
  decide +kernel

/-- `n` bytes counting up from `a`: the keys of 95_test_vectors.md. -/
def counting (a n : Nat) : Bytes := (List.range n).map fun i => BitVec.ofNat 8 (a + i)

/-- The key `00..1f` (V2, V3, V5). -/
def keyK : Bytes := counting 0 32
/-- The nonce of V3 and V5. -/
def nonceN : Bytes := [0, 0, 0, 0, 0, 0, 0, 0x4a, 0, 0, 0, 0]
/-- The key `80..9f` (V8). -/
def keyK2 : Bytes := counting 0x80 32
/-- The nonce of V8. -/
def nonceN2 : Bytes := [0x07, 0, 0, 0, 0x40, 0x41, 0x42, 0x43, 0x44, 0x45, 0x46, 0x47]

theorem test_v2_start :
    startOf Config.sigmaDefault keyK [0, 0, 0, 9, 0, 0, 0, 0x4a, 0, 0, 0, 0] =
      #v[0x61707865, 0x3320646e, 0x79622d32, 0x6b206574, 0x03020100, 0x07060504, 0x0b0a0908, 0x0f0e0d0c,
        0x13121110, 0x17161514, 0x1b1a1918, 0x1f1e1d1c, 0x00000000, 0x09000000, 0x4a000000, 0x00000000] := by
  decide +kernel

theorem test_v2_block :
    (block (startOf Config.sigmaDefault keyK [0, 0, 0, 9, 0, 0, 0, 0x4a, 0, 0, 0, 0]) 1).toList =
      [0x10, 0xf1, 0xe7, 0xe4, 0xd1, 0x3b, 0x59, 0x15, 0x50, 0x0f, 0xdd, 0x1f, 0xa3, 0x20, 0x71, 0xc4] ++
      [0xc7, 0xd1, 0xf4, 0xc7, 0x33, 0xc0, 0x68, 0x03, 0x04, 0x22, 0xaa, 0x9a, 0xc3, 0xd4, 0x6c, 0x4e] ++
      [0xd2, 0x82, 0x64, 0x46, 0x07, 0x9f, 0xaa, 0x09, 0x14, 0xc2, 0xd7, 0x05, 0xd9, 0x8b, 0x02, 0xa2] ++
      [0xb5, 0x12, 0x9c, 0xd1, 0xde, 0x16, 0x4e, 0xb9, 0xcb, 0xd0, 0x83, 0xe8, 0xa2, 0x50, 0x3c, 0x4e] := by
  decide +kernel

theorem test_v4_block_last_counter :
    (block (startOf Config.sigmaDefault (zeros 32) (zeros 12)) 0xffffffff).toList.take 16 =
      [0xac, 0xe4, 0xcd, 0x09, 0xe2, 0x94, 0xd1, 0x91, 0x2d, 0x4a, 0xd2, 0x05, 0xd0, 0x6f, 0x95, 0xd9] := by
  decide +kernel

theorem test_v4_subkey :
    (subkeyOf (startOf Config.sigmaDefault (zeros 32) (zeros 12))).toList.take 16 =
      [0x76, 0xb8, 0xe0, 0xad, 0xa0, 0xf1, 0x3d, 0x90, 0x40, 0x5d, 0x6a, 0xe5, 0x53, 0x86, 0xbd, 0x28] := by
  decide +kernel

/-! ## One step of each command -/

/-- The state that an INIT leaves when it is the first command after reset. -/
def afterInit (dir : Dir) (mode : Mode) (key nonce : Bytes) (ictr : Word) : State :=
  match exec (.init dir mode key nonce ictr) State.reset with
  | .next t => t
  | .fault _ => State.reset
  | .refused _ => State.reset

/-- What a test looks at: the response, the phase and the counters after one command. -/
structure Seen where
  response : Option Response
  phase : Phase
  ctr : Word
  blocks : Nat
  offset : Nat
  aadlen : U64
  datalen : U64
  pendlen : Nat
deriving DecidableEq, Repr

def seen (i : Instr) (s : State) : Option Seen :=
  match exec i s with
  | .next t =>
    some ⟨t.responses.head?, t.phase, t.ks.ctr, t.ks.blocks.val, t.ks.offset.val, t.aadlen, t.datalen, t.pend.length⟩
  | .fault _ => none
  | .refused _ => none

/-- What a test of a failing command looks at: the bytes of the response and the phase. -/
def failed (i : Instr) (s : State) : Option (Bytes × Phase) :=
  match exec i s with
  | .next t => (t.responses.head?).map fun r => (responseBytes r, t.phase)
  | .fault _ => none
  | .refused _ => none

/-- P2 step 1. -/
theorem test_init_aead :
    seen (.init .enc .aead keyK2 nonceN2 9) State.reset = some ⟨some ⟨.ok, 0, []⟩, .initialized, 1, 1, 64, 0, 0, 0⟩ := by
  decide +kernel

/-- P3 step 5: the pair of the session before it (R162). -/
theorem test_init_nonce_reuse :
    failed (.init .dec .stream keyK nonceN 5) (afterInit .enc .stream keyK nonceN 1) =
      some ([2, 0, 0, 0, 0, 0, 0, 0, 0, 0, 0, 0], .uninit) := by decide +kernel

/-- P2 step 2. -/
theorem test_update_aad :
    seen (.updateAad [0x50, 0x51, 0x52, 0x53]) (afterInit .enc .aead keyK2 nonceN2 0) =
      some ⟨some ⟨.ok, 0, []⟩, .aad, 1, 1, 64, 4, 0, 0⟩ := by decide +kernel

/-- P4 step 3: UPDATE_AAD in mode PlainStream costs the session (R190). -/
theorem test_update_aad_in_stream :
    failed (.updateAad [0]) (afterInit .enc .stream keyK nonceN 0xffffffff) =
      some ([3, 0, 0, 0, 0, 0, 0, 0, 0, 0, 0, 0], .uninit) := by decide +kernel

/-- V20, first row. -/
theorem test_update_stream :
    seen (.update [0x4c, 0x61, 0x64, 0x69] 4) (afterInit .dec .stream keyK nonceN 1) =
      some ⟨some ⟨.ok, 4, [0x6e, 0x2e, 0x35, 0x9a]⟩, .data, 2, 1, 4, 0, 0, 0⟩ := by decide +kernel

/-- V20, third row. -/
theorem test_update_aead_enc :
    seen (.update [0x4c, 0x61, 0x64, 0x69] 4) (afterInit .enc .aead keyK2 nonceN2 0) =
      some ⟨some ⟨.ok, 4, [0xd3, 0x1a, 0x8d, 0x34]⟩, .data, 2, 2, 4, 0, 4, 0⟩ := by decide +kernel

/-- V20, fourth row: nothing put out, nothing of the keystream used, whatever the capacity. -/
theorem test_update_aead_dec :
    seen (.update [0x4c, 0x61, 0x64, 0x69] 0) (afterInit .dec .aead keyK2 nonceN2 0) =
      some ⟨some ⟨.ok, 0, []⟩, .data, 1, 1, 64, 0, 0, 4⟩ := by decide +kernel

/-- The tag of V12. -/
def tagV12 : Bytes :=
  [0xa0, 0x78, 0x4d, 0x7a, 0x47, 0x16, 0xf3, 0xfe, 0xb4, 0xf6, 0x4e, 0x7f, 0x4b, 0x39, 0xbf, 0x04]

/-- V12: the empty session's tag. -/
theorem test_finalize_aead_enc :
    seen (.finalize [] 16) (afterInit .enc .aead keyK2 nonceN2 0) =
      some ⟨some ⟨.ok, 16, tagV12⟩, .uninit, 1, 1, 64, 0, 0, 0⟩ := by decide +kernel

/-- V12: sixteen bytes are a tag with empty ciphertext. -/
theorem test_finalize_aead_dec :
    seen (.finalize tagV12 0) (afterInit .dec .aead keyK2 nonceN2 0) =
      some ⟨some ⟨.ok, 0, []⟩, .uninit, 1, 1, 64, 0, 0, 0⟩ := by decide +kernel

/-- V12, V18 row 4: fifteen bytes are too short. -/
theorem test_finalize_too_short :
    failed (.finalize (tagV12.take 15) 0) (afterInit .dec .aead keyK2 nonceN2 0) =
      some ([6, 0, 0, 0, 0, 0, 0, 0, 0, 0, 0, 0], .uninit) := by decide +kernel

/-- V16: `2^64 - 17` fits. -/
theorem test_query_largest :
    seen (.getOutputSize 0xffffffffffffffef true) (afterInit .enc .aead keyK2 nonceN2 0) =
      some ⟨some ⟨.ok, 0xffffffffffffffff, []⟩, .initialized, 1, 1, 64, 0, 0, 0⟩ := by decide +kernel

/-- V16: `2^64 - 16` overflows. -/
theorem test_query_overflow :
    failed (.getOutputSize 0xfffffffffffffff0 true) (afterInit .enc .aead keyK2 nonceN2 0) =
      some ([7, 0, 0, 0, 0, 0, 0, 0, 0, 0, 0, 0], .uninit) := by decide +kernel

/-! ## Witnesses: states and operands that meet the hypotheses of the obligations -/

/-- A key and a nonce of the right lengths. -/
def keyW : Bytes := zeros 32
def nonceW : Bytes := zeros 12
/-- Another nonce. -/
def nonceW' : Bytes := List.replicate 12 1

/-- The start state of the witnesses' pair. -/
def startW : Words := mkStart Config.sigmaDefault (Vector.replicate 32 0) (Vector.replicate 12 0)

/-- A stream session right after INIT with counter 0. -/
def wStream : State :=
  { State.reset with
    phase := .initialized, knvalid := true, ks := { State.reset.ks with start := startW, offset := 64 } }

/-- A stream session with one byte of keystream left in its whole budget. -/
def wStreamLast : State :=
  { wStream with
    phase := .data
    ks := { start := startW, ctr0 := 0, ctr := 0, blocks := 4294967296, ksbuf := block startW (0 - 1), offset := 63 } }

/-- A session of engine AEAD_ENC right after INIT. -/
def wEnc : State :=
  { wStream with
    mode := .aead
    ks := { State.reset.ks with start := startW, ctr := 1, blocks := 1, offset := 64 }
    auth := ⟨subkeyOf startW, []⟩ }

/-- A session of engine AEAD_ENC with one byte of keystream left. -/
def wEncLast : State :=
  { wEnc with
    phase := .data, aclosed := true, datalen := 274877906879
    ks := { start := startW, ctr0 := 0, ctr := 0, blocks := 4294967296, ksbuf := block startW (0 - 1), offset := 63 } }

/-- A session of engine AEAD_DEC right after INIT, with room for four bytes. -/
def wDec : State := { wEnc with dir := .dec, cfg := { Config.paramsDefault with pendingCap := some 4 } }

/-- A session of engine AEAD_DEC that has received `n` zero bytes. -/
def wDecHolding (n : Nat) : State :=
  { wEnc with dir := .dec, phase := .data, aclosed := true, pend := List.replicate n 0 }

theorem witness_wStream : SessionInv wStream := by
  constructor <;> simp [wStream, State.reset, startW, Config.paramsDefault, engineOf]

theorem witness_wStreamLast : SessionInv wStreamLast := by
  constructor <;> simp [wStreamLast, wStream, State.reset, startW, Config.paramsDefault, engineOf, firstBlocks]

theorem witness_wEnc : SessionInv wEnc := by
  constructor <;> simp [wEnc, wStream, State.reset, startW, Config.paramsDefault, engineOf, firstBlocks]

theorem witness_wEncLast : SessionInv wEncLast := by
  constructor <;>
    simp [wEncLast, wEnc, wStream, State.reset, startW, Config.paramsDefault, engineOf, firstBlocks]

theorem witness_wDec : SessionInv wDec := by
  constructor <;> simp [wDec, wEnc, wStream, State.reset, startW, Config.paramsDefault, engineOf, firstBlocks]

theorem witness_wDecHolding (n : Nat) : SessionInv (wDecHolding n) := by
  constructor <;> simp [wDecHolding, wEnc, wStream, State.reset, startW, Config.paramsDefault, engineOf, firstBlocks]

/-- The tag that makes a FINALIZE of `wDecHolding` succeed. -/
def rightTag (s : State) : Vector Byte 16 :=
  macOf s.cfg.mac s.auth.key (s.auth.msg ++ closingPad s ++ s.pend ++ macEnd s.aadlen s.pend.length)

theorem received_tag (s : State) (t : Vector Byte 16) :
    receivedCt s t.toList = s.pend ∧ receivedTag s t.toList = t.toList ∧
      (received s t.toList).length = s.pend.length + 16 := by
  simp [receivedCt, receivedTag, received]

theorem computedTag_rightTag (s : State) :
    (computedTag s (rightTag s).toList).toList = receivedTag s (rightTag s).toList := by
  have h := received_tag s (rightTag s)
  rw [h.2.1, computedTag, h.1]; rfl

theorem witness_DecodeOfEncode :
    (Instr.init .dec .aead keyW nonceW 7).wellFormed = true ∧ (Instr.updateAad [1]).wellFormed = true ∧
    (Instr.update [1, 2] 2).wellFormed = true ∧ (Instr.finalize [] 0).wellFormed = true ∧
    (Instr.getOutputSize 0xffffffffffffffff true).wellFormed = true := by decide

theorem witness_EncodeOfDecode :
    decode [0x05, 0x01, 0, 0, 0x64, 0, 0, 0, 0, 0, 0, 0] = .instr (.getOutputSize 100 true) := by decide

theorem witness_OpcodeRowsDisjoint :
    (⟨.getOutputSize, 0x00000005, 0xFFFFFEFF⟩ : OpRow) ∈ opTable ∧ (0x105 : Word) &&& 0xFFFFFEFF = 0x00000005 := by
  decide

/-- A state whose host has offered `events`. -/
def offered (events : List PortEvent) : State := { State.reset with port := events }

theorem witness_IllegalFrames :
    (offered [.frame [7, 0, 0, 0]]).port = .frame [7, 0, 0, 0] :: [] ∧
      decode [7, 0, 0, 0] = .illegal .reservedOpcode := by decide

theorem witness_StepRunsDecodedCommand :
    (offered [.frame [5, 1, 0, 0, 0x64, 0, 0, 0, 0, 0, 0, 0], .reset]).port =
        .frame [5, 1, 0, 0, 0x64, 0, 0, 0, 0, 0, 0, 0] :: [.reset] ∧
      decode [5, 1, 0, 0, 0x64, 0, 0, 0, 0, 0, 0, 0] = .instr (.getOutputSize 100 true) := by decide

theorem witness_StepWaitsForACommand : State.reset.port = [] := rfl

theorem witness_ResetInputForgetsThePair : (offered [.reset]).port = .reset :: [] := rfl

theorem witness_ConfigurationIsFixed : step State.reset = .next State.reset := rfl

theorem witness_InvKeptByEveryStep :
    Inv { wEnc with port := [.reset] } ∧
      step { wEnc with port := [.reset] } = .next (resetInput (accept { wEnc with port := [.reset] })) := by
  refine ⟨fun _ => ?_, rfl⟩
  constructor <;> simp [wEnc, wStream, State.reset, startW, Config.paramsDefault, engineOf, firstBlocks]

theorem witness_OnlyInitLeavesUninit : State.reset.phase = .uninit := rfl

theorem witness_RaiseInvalidates :
    statusOf (.updateAad [0]) State.reset = .err .illegalState ∧
    statusOf (.getOutputSize 0xfffffffffffffff0 true) wEnc = .err .overflow ∧
    statusOf (.update [1] 0) wStream = .err .shortBuffer ∧
    statusOf (.init .enc .stream [] nonceW 0) State.reset = .err .invalidKey := by decide +kernel

theorem witness_ErrorPriority :
    (offered [.frame []]).port = .frame [] :: [] ∧ decode [] = .illegal .shorterThanHeader := by decide

theorem witness_OutputLengthIsGetSize :
    statusOf (.update [1] 1) wStream = .ok ∧ statusOf (.update [1] 1) wEnc = .ok ∧ statusOf (.update [1] 0) wDec = .ok ∧
    statusOf (.finalize [1] 1) wStream = .ok ∧ statusOf (.finalize [1] 17) wEnc = .ok := by decide +kernel

/-- A FINALIZE of engine AEAD_DEC that succeeds, with `n` bytes of ciphertext. -/
theorem witness_finalize_dec (n : Nat) (cap : U64) (hn : n ≤ avail (wDecHolding n).ks) (hc : n ≤ cap.toNat) :
    statusOf (.finalize (rightTag (wDecHolding n)).toList cap) (wDecHolding n) = .ok := by
  have hr := received_tag (wDecHolding n) (rightTag (wDecHolding n))
  have ht := computedTag_rightTag (wDecHolding n)
  have hp : (wDecHolding n).pend.length = n := List.length_replicate
  have he : engineOf (wDecHolding n).mode (wDecHolding n).dir = .aeadDec := rfl
  have hu : (wDecHolding n).phase ≠ .uninit := nofun
  generalize wDecHolding n = s at *
  simp only [statusOf, if_neg hu, he]
  rw [if_neg (by rw [hp, Vector.length_toList]; omega), if_neg (by omega), if_neg (not_not.mpr ht),
    if_neg (by rw [hr.1, hp]; omega)]

theorem witness_OutputLengthIsGetSize_dec :
    statusOf (.finalize (rightTag (wDecHolding 5)).toList 5) (wDecHolding 5) = .ok :=
  witness_finalize_dec 5 5 (by decide) (by decide)

/-- Two states without a session that hold different session registers. -/
theorem witness_StaleRegistersAreUnobservable :
    State.reset.phase = .uninit ∧ ({ State.reset with pend := [1], mode := .aead } : State).phase = .uninit ∧
    State.reset.cfg = ({ State.reset with pend := [1], mode := .aead } : State).cfg ∧ State.reset.knvalid = false ∧
    State.reset ≠ { State.reset with pend := [1], mode := .aead } := by decide

theorem witness_accepted : initAccepted keyW nonceW State.reset := by
  refine ⟨rfl, rfl, ?_⟩; simp [State.reset]

theorem witness_accepted' : initAccepted keyW nonceW' wDec := by
  refine ⟨rfl, rfl, ?_⟩; simp [wDec, wEnc, wStream, State.reset, nonceW']

theorem witness_InitDeterminesTheSession :
    State.reset.cfg = wEnc.cfg ∧ initAccepted keyW nonceW' State.reset ∧ initAccepted keyW nonceW' wEnc := by
  refine ⟨rfl, ⟨rfl, rfl, ?_⟩, rfl, rfl, ?_⟩ <;> simp [wEnc, wStream, State.reset, nonceW']

theorem witness_ReuseGuard :
    keyW.length = 32 ∧ nonceW.length = 12 ∧ (keyW, nonceW) ≠ (keyW, nonceW') ∧ nonceW'.length = 12 ∧
    initAccepted keyW nonceW State.reset ∧ (nonceW.take 11).length ≠ 12 :=
  ⟨rfl, rfl, by decide, rfl, witness_accepted, by decide⟩

/-- Each line of the sizing table, at the ends of its range. -/
theorem witness_OutputSizeQuery :
    wStream.phase ≠ .uninit ∧ wEnc.phase ≠ .uninit ∧ wDec.phase ≠ .uninit ∧
    engineOf wStream.mode wStream.dir = .stream ∧ engineOf wEnc.mode wEnc.dir = .aeadEnc ∧
    engineOf wDec.mode wDec.dir = .aeadDec ∧
    (18446744073709551615 : U64).toNat = (18446744073709551599 : U64).toNat + 16 ∧
    (0 : U64).toNat = wDec.pend.length + (15 : U64).toNat - 16 ∧
    (1 : U64).toNat = wDec.pend.length + (17 : U64).toNat - 16 := by decide +kernel

theorem witness_QuarterRoundOnTheArray : ([0, 4, 8, 12] : List (Fin 16)).Nodup := by decide

theorem witness_QuarterRoundsCommute : ([0, 4, 8, 12, 1, 5, 9, 13] : List (Fin 16)).Nodup := by decide

theorem witness_KeystreamPositionLaw :
    wStreamLast.phase ≠ .uninit ∧ SessionInv wStreamLast ∧ 1 ≤ avail wStreamLast.ks :=
  ⟨by decide, witness_wStreamLast, Nat.le_refl 1⟩

theorem witness_BlockAccounting :
    wStream.ks.offset.val = 64 ∧ 64 * 4294967296 ≤ avail wStream.ks := ⟨rfl, Nat.le_refl _⟩

theorem witness_SplittingLaw : ([1, 2] : Bytes).length + ([] : Bytes).length ≤ avail wStream.ks := by decide

theorem witness_SecondSessionReturnsTheInput :
    State.reset.cfg.sigma = wDec.cfg.sigma ∧ initAccepted keyW nonceW' State.reset ∧ initAccepted keyW nonceW' wDec ∧
    ([1, 2] : Bytes).length ≤ 64 * (Config.maxBlocks - firstBlocks .stream) ∧
    ([1, 2] : Bytes).length ≤ 64 * (Config.maxBlocks - firstBlocks .aead) ∧ ([1, 2] : Bytes).length ≤ (2 : U64).toNat :=
  ⟨rfl, witness_InitDeterminesTheSession.2.1, witness_accepted', by decide, by decide, by decide⟩

theorem witness_ExhaustionIsNotWrapAround :
    SessionInv wStream ∧ wStream.ks.blocks.val < Config.maxBlocks ∧ SessionInv wStreamLast ∧
    wStreamLast.ks.blocks.val = Config.maxBlocks ∧ wStream.phase ≠ .uninit ∧ wStreamLast.phase ≠ .uninit :=
  ⟨witness_wStream, by decide, witness_wStreamLast, rfl, by decide, by decide⟩

theorem witness_AeadKeystreamSkipsCounterZero :
    wEnc.phase ≠ .uninit ∧ SessionInv wEnc ∧ wEnc.mode = .aead ∧ (refill wEnc.ks).isSome = true :=
  ⟨by decide, witness_wEnc, rfl, rfl⟩

/-- UPDATE and FINALIZE of the Stream Engine: all of the keystream that is left, and one byte more. -/
theorem witness_StreamUpdate :
    wStreamLast.phase ≠ .uninit ∧ SessionInv wStreamLast ∧ wStreamLast.mode = .stream ∧
    ([1] : Bytes).length ≤ (1 : U64).toNat ∧ ([1] : Bytes).length ≤ avail wStreamLast.ks ∧
    ([1, 2] : Bytes).length ≤ (2 : U64).toNat ∧ avail wStreamLast.ks < ([1, 2] : Bytes).length :=
  ⟨by decide, witness_wStreamLast, rfl, by decide, Nat.le_refl 1, by decide, Nat.le_refl 2⟩

theorem witness_StreamFinalize :
    wStreamLast.phase ≠ .uninit ∧ SessionInv wStreamLast ∧ wStreamLast.mode = .stream ∧
    ([1] : Bytes).length ≤ (1 : U64).toNat ∧ ([1] : Bytes).length ≤ avail wStreamLast.ks ∧
    ([1, 2] : Bytes).length ≤ (2 : U64).toNat ∧ avail wStreamLast.ks < ([1, 2] : Bytes).length :=
  witness_StreamUpdate

theorem witness_StreamDirectionIsIrrelevant :
    State.reset.cfg = wEnc.cfg ∧ initAccepted keyW nonceW' State.reset ∧ initAccepted keyW nonceW' wEnc :=
  witness_InitDeterminesTheSession

theorem witness_UpdateAadFeedsTheAuthenticator :
    wEnc.mode = .aead ∧ wEnc.phase = .initialized ∧ wEnc.aadlen.toNat + ([1] : Bytes).length ≤ Config.maxU64 := by
  decide +kernel

/-- Both sides of the limit of AADLEN. -/
theorem witness_AadLengthNeverWraps :
    ({ wEnc with aadlen := 0xfffffffffffffffe } : State).aadlen.toNat + ([1] : Bytes).length ≤ 2 ^ 64 - 1 ∧
    2 ^ 64 - 1 < ({ wEnc with aadlen := 0xfffffffffffffffe } : State).aadlen.toNat + ([1, 2] : Bytes).length ∧
    wEnc.mode = .aead ∧ wEnc.phase = .initialized := by decide +kernel

theorem witness_AeadEncUpdate :
    wEncLast.phase ≠ .uninit ∧ SessionInv wEncLast ∧ wEncLast.mode = .aead ∧ wEncLast.dir = .enc ∧
    ([1] : Bytes).length ≤ (1 : U64).toNat ∧ ([1] : Bytes).length ≤ avail wEncLast.ks ∧
    ([1, 2] : Bytes).length ≤ (2 : U64).toNat ∧ avail wEncLast.ks < ([1, 2] : Bytes).length :=
  ⟨by decide, witness_wEncLast, rfl, rfl, by decide, Nat.le_refl 1, by decide, Nat.le_refl 2⟩

theorem witness_AeadEncFinalize :
    wEncLast.phase ≠ .uninit ∧ SessionInv wEncLast ∧ wEncLast.mode = .aead ∧ wEncLast.dir = .enc ∧
    ([1] : Bytes).length + 16 ≤ (17 : U64).toNat ∧ ([1] : Bytes).length ≤ avail wEncLast.ks ∧
    ([1, 2] : Bytes).length + 16 ≤ (18 : U64).toNat ∧ avail wEncLast.ks < ([1, 2] : Bytes).length :=
  ⟨by decide, witness_wEncLast, rfl, rfl, by decide, Nat.le_refl 1, by decide, Nat.le_refl 2⟩

theorem witness_SealedSession :
    initAccepted keyW nonceW State.reset ∧ ([[1, 2], [], [3]] : List Bytes).flatten.length ≤ Config.maxU64 ∧
    (([[4], [5, 6]] : List Bytes).flatten ++ [7]).length ≤ 64 * (Config.maxBlocks - 1) ∧
    (([[4], [5, 6]] : List Bytes).flatten ++ [7]).length + 16 ≤ (20 : U64).toNat :=
  ⟨witness_accepted, by decide, by decide, by decide⟩

/-- The pending buffer filled to its capacity, and one byte past it. -/
theorem witness_AeadDecUpdateOnlyBuffers :
    wDec.phase ≠ .uninit ∧ wDec.mode = .aead ∧ wDec.dir = .dec ∧ wDec.cfg.pendingCap = some 4 ∧
    wDec.pend.length + ([1, 2, 3, 4] : Bytes).length ≤ 4 ∧ 4 < wDec.pend.length + ([1, 2, 3, 4, 5] : Bytes).length := by
  decide +kernel

/-- Too short by one byte. -/
theorem witness_AeadDecFinalize_short :
    (wDecHolding 15).phase ≠ .uninit ∧ SessionInv (wDecHolding 15) ∧ (wDecHolding 15).mode = .aead ∧
    (wDecHolding 15).dir = .dec ∧ (wDecHolding 15).pend.length + ([] : Bytes).length - 16 ≤ (0 : U64).toNat ∧
    (received (wDecHolding 15) []).length < 16 :=
  ⟨by decide, witness_wDecHolding 15, rfl, rfl, by decide, by decide⟩

/-- The right tag: the hypotheses that the two other clauses share, for any amount of ciphertext and any capacity that
holds it. -/
theorem witness_AeadDecFinalize (n : Nat) (cap : U64) (hc : n ≤ cap.toNat) :
    (wDecHolding n).phase ≠ .uninit ∧ SessionInv (wDecHolding n) ∧ (wDecHolding n).mode = .aead ∧
    (wDecHolding n).dir = .dec ∧
    (wDecHolding n).pend.length + (rightTag (wDecHolding n)).toList.length - 16 ≤ cap.toNat ∧
    16 ≤ (received (wDecHolding n) (rightTag (wDecHolding n)).toList).length ∧
    (computedTag (wDecHolding n) (rightTag (wDecHolding n)).toList).toList =
      receivedTag (wDecHolding n) (rightTag (wDecHolding n)).toList ∧
    (receivedCt (wDecHolding n) (rightTag (wDecHolding n)).toList).length = n ∧
    avail (wDecHolding n).ks = 274877906880 := by
  have hr := received_tag (wDecHolding n) (rightTag (wDecHolding n))
  have hp : (wDecHolding n).pend.length = n := List.length_replicate
  have ha : avail (wDecHolding n).ks = 274877906880 := by
    show (64 - 64) + 64 * (4294967296 - 1) = 274877906880; norm_num
  refine ⟨nofun, witness_wDecHolding n, rfl, rfl, ?_, ?_, computedTag_rightTag _, ?_, ha⟩
  · rw [hp, Vector.length_toList]; omega
  · rw [hr.2.2]; omega
  · rw [hr.1, hp]

/-- Just as much ciphertext as there is keystream, and one byte more: both fit a capacity. -/
theorem witness_AeadDecFinalize_bounds :
    274877906880 ≤ (18446744073709551615 : U64).toNat ∧ 274877906881 ≤ (18446744073709551615 : U64).toNat ∧
    ¬(274877906880 < 274877906880) ∧ 274877906880 < 274877906881 := by decide

theorem witness_BadTagReleasesNothing : statusOf (.finalize [] 0) (wDecHolding 15) = .err .badTag := by decide

theorem witness_TagEqIsEquality : tagV12.length = 16 ∧ (zeros 16).length = 16 := by decide

/-- A FINALIZE that succeeds, and the same with the first bit of the tag flipped. -/
theorem witness_FlippedTagIsRejected :
    let s := wDecHolding 5
    let tag := rightTag s
    let other := tag.set 0 (tag[0] ^^^ 1)
    s.phase ≠ .uninit ∧ s.mode = .aead ∧ s.dir = .dec ∧
    statusOf (.finalize tag.toList 5) s = .ok ∧ other.toList.length = tag.toList.length ∧
    receivedCt s other.toList = receivedCt s tag.toList ∧ other.toList ≠ tag.toList := by
  intro s tag other
  refine ⟨by decide, rfl, rfl, witness_OutputLengthIsGetSize_dec, by simp, ?_, ?_⟩
  · rw [(received_tag s tag).1, (received_tag s other).1]
  · intro h
    have h2 : other[0] = tag[0] := by rw [Vector.toList_inj.mp h]
    simp only [other, Vector.getElem_set_self] at h2
    have h3 : (1 : Byte) = 0 := by
      have := congrArg (fun z => tag[0] ^^^ z) h2
      simp at this
    exact absurd h3 (by decide)

theorem witness_ReleaseGate : wDec.mode = .aead ∧ wDec.dir = .dec := ⟨rfl, rfl⟩

/-- The outer hypotheses; the inner one is met by handing over all that the first session put out as the last piece. -/
theorem witness_AeadRoundTrip :
    State.reset.cfg.sigma = wDec.cfg.sigma ∧ State.reset.cfg.mac = wDec.cfg.mac ∧
    initAccepted keyW nonceW' State.reset ∧ initAccepted keyW nonceW' wDec ∧
    ([[1, 2]] : List Bytes).flatten = ([[1], [2]] : List Bytes).flatten ∧
    (([[4], [5, 6]] : List Bytes).flatten ++ [7]).length + 16 ≤ (20 : U64).toNat ∧
    (([[4], [5, 6]] : List Bytes).flatten ++ [7]).length ≤ (4 : U64).toNat ∧
    (∀ n, wDec.cfg.pendingCap = some n → ([] : List Bytes).flatten.length ≤ n) ∧
    ∀ s' : State, ([] : List Bytes).flatten ++ lastOutput 4 s' = lastOutput 4 s' :=
  ⟨rfl, rfl, witness_InitDeterminesTheSession.2.1, witness_accepted', rfl, by decide, by decide,
    fun _ _ => Nat.zero_le _, fun _ => rfl⟩

end Sys2Proof.Tests
end

section
/-! SUPPORT. What a step can do, said once (`step_cases`, `exec_next_cases`), and the two fields that no command
writes: the configuration (00_scope.md R14) and the port (30_encoding.md R92). -/

namespace Sys2Proof.Machine

open Sys2Proof

/-! ### Inversion of a command and of a step -/

/-- A command that answers `t` has raised an error with the record untouched, or has completed as `Done` says. -/
theorem exec_next_cases {i : Instr} {s t : State} (h : exec i s = .next t) :
    (∃ e s1, t = raise e s1 ∧ SameRecord s s1) ∨ Done i s t := by
  rcases exec_cases i s with ⟨e, s1, he, hs⟩ | ⟨t', he, hd⟩ <;> rw [he] at h <;> cases h
  · exact .inl ⟨e, s1, rfl, hs⟩
  · exact .inr hd

/-- The engine waits, is reset, runs the command that the oldest frame spells, or raises `IllegalState` for a frame
that spells none (20_memory.md R70, 30_encoding.md R101, 70_reset_and_hazards.md R260). -/
theorem step_cases {s t : State} (h : step s = .next t) :
    (s.port = [] ∧ t = s) ∨
    (∃ es, s.port = .reset :: es ∧ t = resetInput (accept s)) ∨
    (∃ f es i, s.port = .frame f :: es ∧ decode f = .instr i ∧ exec i (accept s) = .next t) ∨
    (∃ f es why, s.port = .frame f :: es ∧ decode f = .illegal why ∧ t = illegalFrame (accept s)) := by
  unfold step at h
  split at h
  next hp => cases h; exact .inl ⟨hp, rfl⟩
  next es hp => cases h; exact .inr (.inl ⟨es, hp, rfl⟩)
  next f es hp =>
    unfold runFrame at h
    split at h
    next i hd => exact .inr (.inr (.inl ⟨f, es, i, hp, hd, h⟩))
    next why hd => cases h; exact .inr (.inr (.inr ⟨f, es, why, hp, hd, rfl⟩))

/-! ### The configuration and the port -/

/-- A command that completes writes neither the configuration nor the port. -/
theorem Done.cfg_port {i : Instr} {s t : State} (h : Done i s t) : t.cfg = s.cfg ∧ t.port = s.port := by
  cases h with
  | initStream | initAead | updateAad | query | streamUpdate | streamFinalize => exact ⟨rfl, rfl⟩
  | encUpdate | decUpdate => exact ⟨closeAad_cfg s, closeAad_port s⟩
  | encFinalize _ _ _ _ _ _ _ _ _ _ _ ht => subst ht; constructor <;> simp
  | decFinalize data => exact ⟨(SameRecord.verified data s).cfg, (SameRecord.verified data s).port⟩

/-- No command writes the configuration or the port, whether it completes or raises. -/
theorem exec_cfg_port {i : Instr} {s t : State} (h : exec i s = .next t) : t.cfg = s.cfg ∧ t.port = s.port := by
  rcases exec_next_cases h with ⟨e, s1, rfl, hs⟩ | hd
  · exact ⟨hs.cfg, hs.port⟩
  · exact hd.cfg_port

/-- Settles O11: what a step does after `accept` has taken the oldest event off the port writes neither field, and the
waiting step finds the port empty. -/
theorem configurationIsFixed : Obligations.ConfigurationIsFixed := by
  intro s t h
  rcases step_cases h with ⟨hp, rfl⟩ | ⟨es, -, rfl⟩ | ⟨f, es, i, -, -, he⟩ | ⟨f, es, why, -, -, rfl⟩
  · exact ⟨rfl, by rw [hp, List.drop_nil]⟩
  · exact ⟨rfl, rfl⟩
  · exact exec_cfg_port he
  · exact ⟨rfl, rfl⟩

end Sys2Proof.Machine
end

section
/-! SUPPORT. The Keystream Manager's own invariant (10_state.md R41, R42): a refill and an advance keep it, so handing
out any number of bytes does. -/

namespace Sys2Proof.Machine

open Sys2Proof

/-- What `byteLoop`'s single turn keeps, the whole loop keeps. -/
theorem byteLoop_keeps {P : Keystream → Prop} (hP : ∀ k k' b, takeByte k = some (b, k') → P k → P k')
    (n : Nat) {k k' : Keystream} {o : Bytes} (h : byteLoop n k = some (o, k')) (hk : P k) : P k' := by
  induction n generalizing k o with
  | zero => cases h; exact hk
  | succ n ih =>
    simp only [byteLoop] at h
    split at h
    · cases h
    next b k1 ht =>
      split at h
      · cases h
      next bs k2 hb => cases h; exact ih hb (hP _ _ _ ht hk)

/-- The laws that CTR, BLOCKS and KSBUF obey in a session whose first data block is number `b0` (R41, R42). -/
structure KeystreamLaw (b0 : Nat) (k : Keystream) : Prop where
  base : b0 ≤ k.blocks.val
  counter : k.ctr = k.ctr0 + BitVec.ofNat 32 k.blocks.val
  buffer : k.offset.val < 64 → b0 < k.blocks.val ∧ k.ksbuf = block k.start (k.ctr - 1)

theorem KeystreamLaw.after_refill {b0 : Nat} {k k' : Keystream} (hk : KeystreamLaw b0 k) (h : refill k = some k') :
    KeystreamLaw b0 k' := by
  obtain ⟨k1, h1, -, hs, h0, hc, hb, hbuf, -⟩ | ⟨h1, -⟩ := refill_eq k <;> rw [h1] at h <;> cases h
  have hbase := hk.base
  refine ⟨by omega, ?_, fun _ => ⟨by omega, ?_⟩⟩
  · rw [hc, h0, hb, hk.counter, BitVec.ofNat_add, add_assoc]; rfl
  · rw [hbuf, hs, hc, add_sub_cancel_right]

/-- `OFFSET` only grows, so a buffer that is not exhausted afterwards was not exhausted before. -/
theorem KeystreamLaw.after_advance {b0 : Nat} {k : Keystream} (hk : KeystreamLaw b0 k) (n : Nat) :
    KeystreamLaw b0 (advance k n) := by
  refine ⟨hk.base, hk.counter, fun ho => hk.buffer ?_⟩
  simp only [advance] at ho
  omega

theorem KeystreamLaw.after_takeByte {b0 : Nat} {k k' : Keystream} {b : Byte} (h : takeByte k = some (b, k'))
    (hk : KeystreamLaw b0 k) : KeystreamLaw b0 k' := by
  unfold takeByte ready at h
  split at h
  · cases h
  next k1 hr =>
    cases h
    split at hr
    · exact (hk.after_refill hr).after_advance 1
    · cases hr; exact hk.after_advance 1

theorem KeystreamLaw.after_xorStream {b0 : Nat} {k k' : Keystream} {d o : Bytes} (hk : KeystreamLaw b0 k)
    (h : xorStream d k = some (o, k')) : KeystreamLaw b0 k' := by
  rw [xorStream_eq_byteLoop] at h
  split at h
  · cases h
  next hb => cases h; exact byteLoop_keeps (fun _ _ _ => KeystreamLaw.after_takeByte) _ hb hk

/-- The count of data bytes (44_aead_encrypt.md R198) through `AVAIL`: consumed and left make the whole budget. -/
theorem consumed_iff_avail (k : Keystream) (n : Nat) (h : 1 ≤ k.blocks.val) :
    n + (64 - k.offset.val) = 64 * (k.blocks.val - 1) ↔ n + avail k = 64 * (Config.maxBlocks - 1) := by
  have hb := k.blocks.isLt
  simp only [avail, Config.maxBlocks] at hb ⊢
  omega

/-- Consumed bytes counted in 64 bits don't wrap: the budget is far below 2^64. -/
theorem consumed_add_len64 {k k' : Keystream} {v : U64} {d : Bytes} (hk : avail k = avail k' + d.length)
    (hv : v.toNat + avail k = 64 * (Config.maxBlocks - 1)) :
    (v + len64 d).toNat + avail k' = 64 * (Config.maxBlocks - 1) := by
  simp only [Config.maxBlocks] at hv ⊢
  rw [BitVec.toNat_add, len64, BitVec.toNat_ofNat]
  omega

end Sys2Proof.Machine
end

section
/-! SUPPORT. Every step keeps the session invariant (10_state.md): a session starts with it, every command that leaves the
session open keeps it, and every other step ends in `PHASE = UNINIT`, where the invariant asks nothing. -/

namespace Sys2Proof.Machine

open Sys2Proof

theorem inv_of_uninit {s : State} (h : s.phase = .uninit) : Inv s := fun hp => absurd h hp

/-- Settles O9. -/
theorem resetIsUninitialized : Obligations.ResetIsUninitialized := ⟨rfl, rfl⟩

/-- Settles O12: after reset no session is open. -/
theorem invHoldsAtReset : Obligations.InvHoldsAtReset := inv_of_uninit resetIsUninitialized.1

/-! ### What the session invariant says, and what it doesn't speak of -/

theorem SessionInv.keystreamLaw {s : State} (h : SessionInv s) : KeystreamLaw (firstBlocks s.mode) s.ks where
  base := by
    cases hm : s.mode with
    | stream => exact Nat.zero_le _
    | aead => exact (h.aeadBase hm).2
  counter := h.counterLaw
  buffer := h.bufferIsLastBlock

/-- The port and the list of responses are the host's. -/
theorem SessionInv.anyHost {s : State} (h : SessionInv s) (port : List PortEvent) (responses : List Response) :
    SessionInv { s with port := port, responses := responses } := { h with }

theorem Inv.after_accept {s : State} (h : Inv s) : Inv (accept s) := fun hp => (h hp).anyHost _ _

theorem SessionInv.after_respond {s : State} (h : SessionInv s) (st : Status) (v : U64) (o : Bytes) :
    SessionInv (respond st v o s) := h.anyHost _ _

/-! ### A session starts with it (42_init_and_query.md R163, R164) -/

theorem sessionInv_initStream (dir : Dir) (key nonce : Bytes) (ictr : Word) (s : State) :
    SessionInv { initStream ictr (initCommon dir .stream key nonce s) with phase := .initialized } where
  pairRecorded := rfl
  startOfPair := rfl
  counterLaw := (add_zero ictr).symm
  bufferIsLastBlock h := absurd h (Nat.lt_irrefl 64)
  aadPhaseIsAead := nofun
  closedIffData := nofun
  aeadBase := nofun
  authKeyIsSubkey := nofun
  beforeData := nofun
  encDatalen := nofun
  decIdle := nofun
  pendFits := nofun

theorem sessionInv_initAead (dir : Dir) (key nonce : Bytes) (s : State) :
    SessionInv { initAead (initCommon dir .aead key nonce s) with phase := .initialized } where
  pairRecorded := rfl
  startOfPair := rfl
  counterLaw := (zero_add 1).symm
  bufferIsLastBlock h := absurd h (Nat.lt_irrefl 64)
  aadPhaseIsAead := nofun
  closedIffData _ := by simp [initAead]
  aeadBase _ := ⟨rfl, Nat.le_refl 1⟩
  authKeyIsSubkey _ := rfl
  beforeData _ _ := ⟨rfl, rfl, rfl, rfl⟩
  encDatalen _ := rfl
  decIdle _ := ⟨rfl, rfl, rfl⟩
  pendFits _ cap _ := Nat.zero_le cap

/-! ### The commands of an open session keep it -/

/-- The length of the AAD is counted without wrapping (44_aead_encrypt.md R191). -/
theorem SessionInv.after_updateAad {s : State} (h : SessionInv s) (data : Bytes) (hm : s.mode = .aead)
    (hp : s.phase = .initialized ∨ s.phase = .aad) (hl : s.aadlen.toNat + data.length ≤ Config.maxU64) :
    SessionInv { authUpdate data s with aadlen := s.aadlen + len64 data, phase := .aad } := by
  have hnd : s.phase ≠ .data := by rcases hp with hp | hp <;> rw [hp] <;> decide
  obtain ⟨hmsg, hdl, hbl, hof⟩ := h.beforeData hm hnd
  have hlen : (s.aadlen + len64 data).toNat = s.aadlen.toNat + data.length := by
    simp only [Config.maxU64] at hl
    rw [BitVec.toNat_add, len64, BitVec.toNat_ofNat]
    omega
  exact { h with
    aadPhaseIsAead := fun _ => hm
    closedIffData := fun _ => iff_of_false (fun hc => hnd ((h.closedIffData hm).mp hc)) nofun
    beforeData := fun _ _ => ⟨by simp [hmsg, hlen], hdl, hbl, hof⟩ }

/-- In mode PlainStream the data phase asks only for the keystream's laws. -/
theorem SessionInv.after_streamUpdate {s : State} (h : SessionInv s) {data out : Bytes} {k : Keystream} (hm : s.mode = .stream)
    (hx : xorStream data s.ks = some (out, k)) : SessionInv { s with ks := k, phase := .data } := by
  have hk := h.keystreamLaw.after_xorStream hx
  obtain ⟨-, hstart, -, -⟩ := xorStream_spec _ _ _ _ hx
  have hna : s.mode ≠ .aead := by rw [hm]; decide
  exact {
    pairRecorded := h.pairRecorded
    startOfPair := hstart.trans h.startOfPair
    counterLaw := hk.counter
    bufferIsLastBlock := hk.buffer
    aadPhaseIsAead := nofun
    closedIffData := fun ha => absurd ha hna
    aeadBase := fun ha => absurd ha hna
    authKeyIsSubkey := fun ha => absurd ha hna
    beforeData := fun ha => absurd ha hna
    encDatalen := fun he => absurd ((engineOf_aeadEnc _ _).mp he).1 hna
    decIdle := fun he => absurd ((engineOf_aeadDec _ _).mp he).1 hna
    pendFits := fun he => absurd ((engineOf_aeadDec _ _).mp he).1 hna }

/-- The engine AEAD_ENC counts in `DATALEN` what it takes from the keystream (44_aead_encrypt.md R193, R198). -/
theorem SessionInv.after_encUpdate {s : State} (h : SessionInv s) {data out : Bytes} {k : Keystream}
    (he : engineOf s.mode s.dir = .aeadEnc) (hx : xorStream data s.ks = some (out, k)) :
    SessionInv
      { authUpdate out (closeAad s) with ks := k, datalen := s.datalen + len64 data, phase := .data } := by
  have hk := h.keystreamLaw.after_xorStream hx
  obtain ⟨-, hstart, hctr0, havail⟩ := xorStream_spec _ _ _ _ hx
  obtain ⟨hm, hd⟩ := (engineOf_aeadEnc _ _).mp he
  obtain ⟨hc0, hb⟩ := h.aeadBase hm
  have hb' : firstBlocks .aead ≤ k.blocks.val := hm ▸ hk.base
  have hcount := consumed_add_len64 havail ((consumed_iff_avail _ _ hb).mp (h.encDatalen he))
  have hnd : engineOf (closeAad s).mode (closeAad s).dir ≠ .aeadDec := by
    rw [closeAad_mode, closeAad_dir, he]; decide
  exact {
    pairRecorded := by simpa using h.pairRecorded
    startOfPair := by simpa [hstart] using h.startOfPair
    counterLaw := hk.counter
    bufferIsLastBlock := by simpa using hk.buffer
    aadPhaseIsAead := nofun
    closedIffData := by simp
    aeadBase := fun _ => ⟨hctr0.trans hc0, hb'⟩
    authKeyIsSubkey := by simpa [hstart] using h.authKeyIsSubkey
    beforeData := fun _ hp => absurd rfl hp
    encDatalen := fun _ => (consumed_iff_avail _ _ hb').mpr hcount
    decIdle := fun hde => absurd hde hnd
    pendFits := fun hde => absurd hde hnd }

/-- The engine AEAD_DEC only buffers, within `PENDING_CAP` (45_aead_decrypt.md R212, R213). -/
theorem SessionInv.after_decUpdate {s : State} (h : SessionInv s) {data : Bytes} (he : engineOf s.mode s.dir = .aeadDec)
    (hc : passesCapacity s data.length = false) :
    SessionInv { closeAad s with pend := s.pend ++ data, phase := .data } := by
  have hfits : ∀ cap, s.cfg.pendingCap = some cap → (s.pend ++ data).length ≤ cap := by
    intro cap hcap
    by_contra hlt
    rw [List.length_append] at hlt
    exact absurd ((passesCapacity_iff s data.length).mpr ⟨cap, hcap, by omega⟩) (by simp [hc])
  exact {
    pairRecorded := by simpa using h.pairRecorded
    startOfPair := by simpa using h.startOfPair
    counterLaw := by simpa using h.counterLaw
    bufferIsLastBlock := by simpa using h.bufferIsLastBlock
    aadPhaseIsAead := nofun
    closedIffData := by simp
    aeadBase := by simpa using h.aeadBase
    authKeyIsSubkey := by simpa using h.authKeyIsSubkey
    beforeData := fun _ hp => absurd rfl hp
    encDatalen := fun hen => by simp [he] at hen
    decIdle := by simpa using h.decIdle
    pendFits := fun _ => by simpa using hfits }

/-! ### Every command, every step -/

theorem Done.inv {i : Instr} {s t : State} (hd : Done i s t) (h : Inv s) : Inv t := by
  cases hd with
  | initStream dir key nonce ictr => exact fun _ => (sessionInv_initStream dir key nonce ictr s).after_respond ..
  | initAead dir key nonce => exact fun _ => (sessionInv_initAead dir key nonce s).after_respond ..
  | updateAad data _ hm hp hl =>
    have hs : s.phase ≠ .uninit := by rcases hp with hp | hp <;> rw [hp] <;> decide
    exact fun _ => ((h hs).after_updateAad data hm hp hl).after_respond ..
  | query _ _ _ hp => exact fun _ => (h hp).after_respond ..
  | streamUpdate _ _ _ _ _ hp he _ _ hx =>
    exact fun _ => ((h hp).after_streamUpdate ((engineOf_stream _ _).mp he) hx).after_respond ..
  | encUpdate _ _ _ _ _ hp he _ _ hx => exact fun _ => ((h hp).after_encUpdate he hx).after_respond ..
  | decUpdate _ _ _ hp he hc => exact fun _ => ((h hp).after_decUpdate he hc).after_respond ..
  | streamFinalize | encFinalize | decFinalize => exact inv_of_uninit rfl

theorem exec_inv {i : Instr} {s t : State} (he : exec i s = .next t) (h : Inv s) : Inv t := by
  rcases exec_next_cases he with ⟨e, s1, rfl, -⟩ | hd
  · exact inv_of_uninit (raise_phase e s1)
  · exact hd.inv h

/-- Settles O13: waiting changes nothing, a command keeps the invariant, and the reset input and an ILLEGAL frame close
the session. -/
theorem invKeptByEveryStep : Obligations.InvKeptByEveryStep := by
  intro s t hi h
  rcases step_cases h with ⟨-, rfl⟩ | ⟨es, -, rfl⟩ | ⟨f, es, i, -, -, he⟩ | ⟨f, es, why, -, -, rfl⟩
  · exact hi
  · exact inv_of_uninit (resetInput_phase _)
  · exact exec_inv he hi.after_accept
  · exact inv_of_uninit (raise_phase _ _)

/-- Settles O40: by the counter law, `BLOCKS` = 2^32 brings CTR back to CTR0. -/
theorem exhaustionIsNotWrapAround : Obligations.ExhaustionIsNotWrapAround := by
  intro s _ h
  refine ⟨fun hlt => ?_, fun heq => ⟨?_, ?_⟩⟩
  · obtain ⟨k, hr, -, -, -, hctr, hblocks, hbuf, -⟩ | ⟨-, hb⟩ := refill_eq s.ks
    · exact ⟨k, hr, hblocks, hctr, hbuf⟩
    · omega
  · have hwrap : BitVec.ofNat 32 Config.maxBlocks = 0 := rfl
    rw [h.counterLaw, heq, hwrap, add_zero]
  · obtain ⟨k, -, hlt, -⟩ | ⟨hr, -⟩ := refill_eq s.ks
    · omega
    · exact hr

end Sys2Proof.Machine
end

section
/-! SUPPORT. The phase table and the reuse guard's record (10_state.md R26, R30), from the ten ways in which a command
completes and the one response with which every command ends. -/

namespace Sys2Proof.Machine

open Sys2Proof

/-! ### One response, its status and the phase after it -/

/-- A command that completes hands back one response, with status OK (30_encoding.md R104). -/
theorem Done.responds_ok {i : Instr} {s t : State} (hd : Done i s t) :
    ∃ v o, t.responses = ⟨.ok, v, o⟩ :: s.responses := by
  cases hd with
  | initStream | initAead | updateAad | query | streamUpdate | streamFinalize => exact ⟨_, _, rfl⟩
  | encUpdate | decUpdate => exact ⟨_, _, congrArg _ (closeAad_responses s)⟩
  | encFinalize _ _ _ _ _ t _ _ _ _ _ ht =>
    have ht : t.responses = s.responses := by simp [ht]
    exact ⟨_, _, congrArg _ ((finishMac_responses t.datalen.toNat t).trans ht)⟩
  | decFinalize data => exact ⟨_, _, congrArg _ (SameRecord.verified data s).responses⟩

/-- Any command hands back one response: an error, by `raise`, or OK, completing as `Done` says. -/
theorem exec_responds (i : Instr) (s : State) : ∃ t r, exec i s = .next t ∧ t.responses = r :: s.responses ∧
    ((∃ e s1, t = raise e s1 ∧ SameRecord s s1 ∧ r.status = .err e) ∨ (Done i s t ∧ r.status = .ok)) := by
  rcases exec_cases i s with ⟨e, s1, he, hs⟩ | ⟨t, he, hd⟩
  · exact ⟨_, _, he, congrArg _ hs.responses, .inl ⟨e, s1, rfl, hs, rfl⟩⟩
  · obtain ⟨v, o, hr⟩ := hd.responds_ok
    exact ⟨t, _, he, hr, .inr ⟨hd, rfl⟩⟩

theorem Done.phase {i : Instr} {s t : State} (hd : Done i s t) : phaseAfterOk i s = some t.phase := by
  cases hd with
  | initStream | initAead => rfl
  | updateAad _ _ hm hp => rcases hp with hp | hp <;> simp [phaseAfterOk, hm, hp]
  | query _ _ _ hp | streamUpdate _ _ _ _ _ hp | streamFinalize _ _ _ _ _ hp | encUpdate _ _ _ _ _ hp
  | encFinalize _ _ _ _ _ _ hp | decUpdate _ _ _ hp | decFinalize _ _ _ _ _ hp => exact if_neg hp

/-- The phases and modes in which the table refuses UPDATE_AAD (44_aead_encrypt.md R190). -/
theorem phaseAfterOk_updateAad_none (data : Bytes) (s : State) :
    phaseAfterOk (.updateAad data) s = none ↔ s.phase = .uninit ∨ s.mode ≠ .aead ∨ s.phase = .data := by
  have hm : s.mode ≠ .aead ↔ s.mode = .stream := by cases s.mode <;> simp
  rw [hm, or_comm (a := s.mode = .stream)]
  simp only [phaseAfterOk, ite_eq_left_iff, reduceCtorEq, imp_false, not_not]

/-- The commands that the phase table doesn't allow raise `IllegalState`, whatever else is wrong with them. -/
theorem exec_illegal {i : Instr} {s : State} (h : phaseAfterOk i s = none) :
    exec i s = .next (raise .illegalState s) := by
  cases i with
  | init => cases h
  | updateAad data => exact execUpdateAad_illegal data s ((phaseAfterOk_updateAad_none data s).mp h)
  | update data cap =>
    have hp : s.phase = .uninit := by simpa [phaseAfterOk] using h
    exact execUpdate_raise data cap s _ (prologue_uninit data cap false s hp)
  | finalize data cap =>
    have hp : s.phase = .uninit := by simpa [phaseAfterOk] using h
    exact execFinalize_raise data cap s _ (prologue_uninit data cap true s hp)
  | getOutputSize n f =>
    have hp : s.phase = .uninit := by simpa [phaseAfterOk] using h
    exact execGetOutputSize_illegal n f s hp

/-- Only UPDATE_AAD, in mode AEAD, enters `PHASE = AAD`; a query stays in it, and keeps the mode. -/
theorem Done.aad_is_aead {i : Instr} {s t : State} (hd : Done i s t) (hs : s.phase = .aad → s.mode = .aead)
    (ht : t.phase = .aad) : t.mode = .aead := by
  cases hd with
  | updateAad _ _ hm => exact hm
  | query => exact hs ht
  | initStream | initAead | streamUpdate | streamFinalize | encUpdate | encFinalize | decUpdate | decFinalize => cases ht

/-- Settles O14: a command that completes follows the table, one that raises closes the session, and one that the table
doesn't allow raises `IllegalState`. -/
theorem phaseTransitions : Obligations.PhaseTransitions := by
  intro i s
  by_cases hn : phaseAfterOk i s = none
  · exact ⟨raise .illegalState s, _, exec_illegal hn, rfl, nofun, fun _ => rfl, fun _ => rfl, fun _ => nofun⟩
  obtain ⟨t, r, he, hr, ⟨e, s1, rfl, -, hst⟩ | ⟨hd, hst⟩⟩ := exec_responds i s
  · exact ⟨_, r, he, hr, fun hok => by simp [hst] at hok, fun _ => rfl, fun h => absurd h hn, fun _ => nofun⟩
  · exact ⟨t, r, he, hr, fun _ => hd.phase, fun hne => absurd hst hne, fun h => absurd h hn, hd.aad_is_aead⟩

/-! ### The reuse guard's record -/

/-- A command that completes is an INIT, which records its operands, or leaves the record alone. -/
theorem Done.record {i : Instr} {s t : State} (hd : Done i s t) :
    (∃ dir mode key nonce ictr, i = .init dir mode key nonce ictr ∧ t.knvalid = true ∧ t.key.toList = key ∧
      t.nonce.toList = nonce) ∨
    (t.knvalid = s.knvalid ∧ t.key = s.key ∧ t.nonce = s.nonce) := by
  cases hd with
  | initStream dir key nonce ictr _ ha | initAead dir key nonce ictr _ ha =>
    exact .inl ⟨dir, _, key, nonce, ictr, rfl, rfl, toRegister_toList 32 key ha.1, toRegister_toList 12 nonce ha.2.1⟩
  | updateAad | query | streamUpdate | streamFinalize => exact .inr ⟨rfl, rfl, rfl⟩
  | encUpdate | decUpdate => exact .inr ⟨closeAad_knvalid s, closeAad_key s, closeAad_nonce s⟩
  | encFinalize _ _ _ _ _ _ _ _ _ _ _ ht => subst ht; exact .inr (by simp)
  | decFinalize data =>
    have hv := SameRecord.verified data s
    exact .inr ⟨hv.knvalid, hv.key, hv.nonce⟩

/-- Settles O20: an error leaves the record standing, and so does every command that completes but INIT. -/
theorem recordWrittenOnlyByInit : Obligations.RecordWrittenOnlyByInit := by
  intro i s
  obtain ⟨t, r, he, hr, ⟨e, s1, rfl, hs, -⟩ | ⟨hd, hst⟩⟩ := exec_responds i s
  · exact ⟨_, r, he, hr, .inr ⟨hs.knvalid, hs.key, hs.nonce⟩⟩
  · rcases hd.record with ⟨dir, mode, key, nonce, ictr, hi, hkn, hk, hn⟩ | hsame
    · exact ⟨t, r, he, hr, .inl ⟨dir, mode, key, nonce, ictr, hi, hst, hkn, hk, hn⟩⟩
    · exact ⟨t, r, he, hr, .inr hsame⟩

end Sys2Proof.Machine
end

section
/-! SUPPORT. Which keystreams can't be told apart: those that agree once a byte is ready in the buffer. What an exhausted
buffer holds is then of no account (10_state.md R42, R52). -/

namespace Sys2Proof.Machine

open Sys2Proof

/-- `CONSUME` hands out all that is available (41_keystream_and_xor.md R141, R145). -/
theorem byteLoop_of_avail (n : Nat) {k : Keystream} (h : n ≤ avail k) : ∃ o k', byteLoop n k = some (o, k') := by
  induction n generalizing k with
  | zero => exact ⟨[], k, rfl⟩
  | succ n ih =>
    cases ht : takeByte k with
    | none =>
      have := (takeByte_none k).mp ht
      omega
    | some p =>
      obtain ⟨hav, -, -⟩ := takeByte_avail k p.2 p.1 ht
      obtain ⟨o, k', hb⟩ := ih (k := p.2) (by omega)
      exact ⟨p.1 :: o, k', by simp only [byteLoop, ht, hb]⟩

theorem xorStream_of_avail {d : Bytes} {k : Keystream} (h : d.length ≤ avail k) :
    ∃ o k', xorStream d k = some (o, k') := by
  obtain ⟨o, k', hb⟩ := byteLoop_of_avail d.length h
  exact ⟨_, k', by rw [xorStream_eq_byteLoop, hb]⟩

section
variable {k l : Keystream} (h : ready k = ready l)
include h

theorem takeByte_eq_of_ready_eq : takeByte k = takeByte l := by
  simp only [takeByte, h]

theorem avail_eq_of_ready_eq : avail k = avail l := by
  have ht := takeByte_eq_of_ready_eq h
  cases hk : takeByte k with
  | none => rw [(takeByte_none k).mp hk, (takeByte_none l).mp (ht ▸ hk)]
  | some p => exact (takeByte_avail k p.2 p.1 hk).1.trans (takeByte_avail l p.2 p.1 (ht ▸ hk)).1.symm

/-- Two keystreams that agree once ready give the same output, and agree again afterwards. -/
theorem xorStream_of_ready_eq {d : Bytes} (ha : d.length ≤ avail k) :
    ∃ o k' l', xorStream d k = some (o, k') ∧ xorStream d l = some (o, l') ∧ ready k' = ready l' := by
  cases d with
  | nil => exact ⟨[], k, l, rfl, rfl, h⟩
  | cons b d =>
    obtain ⟨o, k', hk⟩ := xorStream_of_avail ha
    refine ⟨o, k', k', hk, ?_, rfl⟩
    rw [← hk]
    simp only [xorStream_eq_byteLoop, List.length_cons, byteLoop, takeByte_eq_of_ready_eq h]

end

/-- Exhausted keystreams that differ in KSBUF alone: the refill overwrites it. -/
theorem ready_eq_of_exhausted {k l : Keystream} (hk : k.offset.val = 64) (hl : l = { k with ksbuf := l.ksbuf }) :
    ready k = ready l := by
  rw [hl]
  simp [ready, refill, hk]

end Sys2Proof.Machine
end

section
/-! SUPPORT. States that no response can tell apart (10_state.md R52): every command gives the same response in both and
leaves two such states, so every sequence of commands does. -/

namespace Sys2Proof.Machine

open Sys2Proof

/-! ### The relation -/

/-- The same parameters and the same record of the reuse guard (10_state.md R30, R32, R33). -/
structure AlikeRecord (s t : State) : Prop where
  cfg : s.cfg = t.cfg
  knvalid : s.knvalid = t.knvalid
  pair : s.knvalid = true → s.key = t.key ∧ s.nonce = t.nonce

/-- The registers that only mode AEAD reads (10_state.md R28, R44 to R47). -/
structure SameAead (s t : State) : Prop where
  aclosed : s.aclosed = t.aclosed
  aadlen : s.aadlen = t.aadlen
  datalen : s.datalen = t.datalen
  auth : s.auth = t.auth
  pend : s.pend = t.pend

/-- Two open sessions that no response can tell apart: the engine is the same, the direction of a stream session plays no
part (43_stream_engine.md R186), and neither does a buffer that is exhausted. -/
structure AlikeSession (s t : State) : Prop where
  engine : engineOf s.mode s.dir = engineOf t.mode t.dir
  keystream : ready s.ks = ready t.ks
  aead : s.mode = .aead → SameAead s t

/-- Two states that no response can tell apart. -/
structure Alike (s t : State) : Prop extends AlikeRecord s t where
  phase : s.phase = t.phase
  session : s.phase ≠ .uninit → AlikeSession s t

/-- The same newest response, and two states that are alike. -/
def AnswersAlike (s t s' t' : State) : Prop :=
  ∃ r, s'.responses = r :: s.responses ∧ t'.responses = r :: t.responses ∧ Alike s' t'

theorem AlikeRecord.congr {s t s1 t1 : State} (h : AlikeRecord s t) (hs : SameRecord s s1) (ht : SameRecord t t1) :
    AlikeRecord s1 t1 where
  cfg := by rw [hs.cfg, ht.cfg, h.cfg]
  knvalid := by rw [hs.knvalid, ht.knvalid, h.knvalid]
  pair hv := by
    rw [hs.knvalid] at hv
    rw [hs.key, ht.key, hs.nonce, ht.nonce]
    exact h.pair hv

/-- The list of responses takes no part in the relation. -/
theorem Alike.respond {s t : State} (h : Alike s t) (st : Status) (v : U64) (o : Bytes) :
    Alike (respond st v o s) (respond st v o t) :=
  ⟨⟨h.cfg, h.knvalid, h.pair⟩, h.phase, fun hp =>
    have hs := h.session hp
    ⟨hs.engine, hs.keystream, fun hm => { hs.aead hm with }⟩⟩

section
variable {s t s1 t1 : State} {st : Status} {v : U64} {o : Bytes} (h : AlikeRecord s t) (hs : SameRecord s s1) (ht : SameRecord t t1)
include h hs ht

/-- A command that completes and leaves the record standing, in a session or at its end. Where a command writes session
registers only, `hs` and `ht` are `{ h with }`: `SameRecord` doesn't speak of them. -/
theorem AlikeRecord.answer (hp : s1.phase = t1.phase)
    (hss : s1.phase ≠ .uninit → AlikeSession s1 t1) :
    AnswersAlike s t (respond st v o s1) (respond st v o t1) :=
  ⟨⟨st, v, o⟩, congrArg _ hs.responses, congrArg _ ht.responses, Alike.respond ⟨h.congr hs ht, hp, hss⟩ st v o⟩

/-- The same error leaves two states alike, whatever they held (60_exceptions.md R240). -/
theorem AlikeRecord.raise (e : ErrorKind) : AnswersAlike s t (raise e s1) (raise e t1) :=
  AlikeRecord.answer h (s1 := invalidate s1) (t1 := invalidate t1) { hs with } { ht with } rfl (absurd rfl)

end

/-! ### INIT (42_init_and_query.md R160 to R168) -/

theorem AlikeRecord.reused_iff {s t : State} (h : AlikeRecord s t) (key nonce : Bytes) :
    (s.knvalid = true ∧ key = s.key.toList ∧ nonce = s.nonce.toList) ↔
      (t.knvalid = true ∧ key = t.key.toList ∧ nonce = t.nonce.toList) := by
  rw [← h.knvalid]
  refine and_congr_right fun hv => ?_
  obtain ⟨hk, hn⟩ := h.pair hv
  rw [hk, hn]

/-- After INIT in mode PlainStream nothing is left of what the two states held before but their configuration. -/
theorem alike_initStream {s t : State} (h : s.cfg = t.cfg) (dir dir' : Dir) (key nonce : Bytes) (ictr : Word) :
    Alike { initStream ictr (initCommon dir .stream key nonce s) with phase := .initialized }
      { initStream ictr (initCommon dir' .stream key nonce t) with phase := .initialized } where
  cfg := h
  knvalid := rfl
  pair _ := ⟨rfl, rfl⟩
  phase := rfl
  session _ := ⟨rfl, ready_eq_of_exhausted rfl (by simp [initStream, initCommon, h]), nofun⟩

/-- After INIT in mode AEAD too. -/
theorem alike_initAead {s t : State} (h : s.cfg = t.cfg) (dir : Dir) (key nonce : Bytes) :
    Alike { initAead (initCommon dir .aead key nonce s) with phase := .initialized }
      { initAead (initCommon dir .aead key nonce t) with phase := .initialized } where
  cfg := by simpa [initAead, initCommon] using h
  knvalid := by simp [initAead, initCommon]
  pair _ := by simp [initAead, initCommon]
  phase := rfl
  session _ := {
    engine := by simp [initAead, initCommon]
    keystream := ready_eq_of_exhausted (by simp [initAead, initCommon]) (by simp [initAead, initCommon, h])
    aead := fun _ => by constructor <;> simp [initAead, initCommon, h] }

theorem execInit_alike {s t : State} (h : AlikeRecord s t) (dir : Dir) (mode : Mode) (key nonce : Bytes) (ictr : Word) :
    ∃ s' t', execInit dir mode key nonce ictr s = .next s' ∧ execInit dir mode key nonce ictr t = .next t' ∧
      AnswersAlike s t s' t' := by
  by_cases hl : key.length = 32 ∧ nonce.length = 12
  · by_cases hr : s.knvalid = true ∧ key = s.key.toList ∧ nonce = s.nonce.toList
    · exact ⟨_, _, execInit_nonceReuse dir mode key nonce ictr s hl hr,
        execInit_nonceReuse dir mode key nonce ictr t hl ((h.reused_iff key nonce).mp hr), h.raise (.self s) (.self t) _⟩
    · have hs : initAccepted key nonce s := ⟨hl.1, hl.2, hr⟩
      have ht : initAccepted key nonce t := ⟨hl.1, hl.2, fun hr' => hr ((h.reused_iff key nonce).mpr hr')⟩
      cases mode with
      | stream => exact ⟨_, _, execInit_stream dir key nonce ictr s hs, execInit_stream dir key nonce ictr t ht,
          _, rfl, rfl, (alike_initStream h.cfg dir dir key nonce ictr).respond ..⟩
      | aead => exact ⟨_, _, execInit_aead dir key nonce ictr s hs, execInit_aead dir key nonce ictr t ht,
          _, rfl, rfl, (alike_initAead h.cfg dir key nonce).respond ..⟩
  · have hl : key.length ≠ 32 ∨ nonce.length ≠ 12 := by omega
    exact ⟨_, _, execInit_invalidKey dir mode key nonce ictr s hl, execInit_invalidKey dir mode key nonce ictr t hl,
      h.raise (.self s) (.self t) _⟩

/-! ### What two sessions that are alike compute -/

theorem AlikeSession.mode {s t : State} (h : AlikeSession s t) : s.mode = t.mode := by
  have hm : s.mode = .stream ↔ t.mode = .stream := by
    rw [← engineOf_stream s.mode s.dir, ← engineOf_stream t.mode t.dir, h.engine]
  cases hs : s.mode with
  | stream => exact (hm.mp hs).symm
  | aead =>
    cases ht : t.mode with
    | stream => simp [hm.mpr ht] at hs
    | aead => rfl

theorem AlikeSession.getSize_eq {s t : State} (h : AlikeSession s t) (n : Nat) (f : Bool) :
    getSize s n f = getSize t n f := by
  have he' := h.engine
  cases he : engineOf s.mode s.dir with
  | stream => rw [getSize_stream s n f he, getSize_stream t n f (he' ▸ he)]
  | aeadEnc => rw [getSize_aeadEnc s n f he, getSize_aeadEnc t n f (he' ▸ he)]
  | aeadDec =>
    rw [getSize_aeadDec s n f he, getSize_aeadDec t n f (he' ▸ he), (h.aead ((engineOf_aeadDec _ _).mp he).1).pend]

theorem SameAead.closingPad_eq {s t : State} (h : SameAead s t) : closingPad s = closingPad t := by
  unfold closingPad
  rw [h.aclosed, h.aadlen]

theorem SameAead.closeAad_auth_eq {s t : State} (h : SameAead s t) : (closeAad s).auth = (closeAad t).auth := by
  rw [closeAad_auth, closeAad_auth, h.auth, h.closingPad_eq]

/-- The tag depends on the authenticator, the length of the AAD and the parameter MAC alone. -/
theorem finishMac_tag_congr {s t : State} (n : Nat) (hc : s.cfg = t.cfg) (ha : s.auth = t.auth)
    (hl : s.aadlen = t.aadlen) : (finishMac n s).1 = (finishMac n t).1 := by
  rw [finishMac_tag, finishMac_tag, hc, ha, hl]

/-! ### The engines -/

section
variable {s t : State} (h : Alike s t) (hss : AlikeSession s t) (data : Bytes)
include h hss

theorem updateAad_alike (hp : s.phase = .initialized ∨ s.phase = .aad) (hm : s.mode = .aead) :
    ∃ s' t', execUpdateAad data s = .next s' ∧ execUpdateAad data t = .next t' ∧ AnswersAlike s t s' t' := by
  have hr := hss.aead hm
  rw [execUpdateAad_legal data s hm hp, execUpdateAad_legal data t (hss.mode ▸ hm) (h.phase ▸ hp), ← hr.aadlen]
  split
  · exact ⟨_, _, rfl, rfl, h.raise (.self s) (.self t) _⟩
  · refine ⟨_, _, rfl, rfl, h.answer ⟨rfl, rfl, rfl, rfl, rfl, rfl⟩ ⟨rfl, rfl, rfl, rfl, rfl, rfl⟩ rfl fun _ => ?_⟩
    exact ⟨hss.engine, hss.keystream, fun _ => ⟨hr.aclosed, rfl, hr.datalen, by simp [hr.auth], hr.pend⟩⟩

theorem query_alike (n : U64) (f : Bool) (hp : s.phase ≠ .uninit) :
    ∃ s' t', execGetOutputSize n f s = .next s' ∧ execGetOutputSize n f t = .next t' ∧ AnswersAlike s t s' t' := by
  rw [execGetOutputSize_session n f s hp, execGetOutputSize_session n f t (h.phase ▸ hp), ← hss.getSize_eq]
  split
  · exact ⟨_, _, rfl, rfl, h.raise (.self s) (.self t) _⟩
  · exact ⟨_, _, rfl, rfl, h.answer (.self s) (.self t) h.phase h.session⟩

theorem streamUpdate_alike (hm : s.mode = .stream) :
    AnswersAlike s t (streamUpdate data s) (streamUpdate data t) := by
  have hav := avail_eq_of_ready_eq hss.keystream
  by_cases ha : avail s.ks < data.length
  · rw [streamUpdate_exhausted data s ha, streamUpdate_exhausted data t (hav ▸ ha)]
    exact h.raise (.self s) (.self t) _
  · obtain ⟨o, k, l, hs, ht, hkl⟩ := xorStream_of_ready_eq hss.keystream (Nat.le_of_not_lt ha)
    rw [streamUpdate_completes data o s k (by omega) hs, streamUpdate_completes data o t l (by omega) ht]
    exact h.answer { SameRecord.self s with } { SameRecord.self t with } rfl fun _ =>
      ⟨hss.engine, hkl, fun hm' => by simp [hm] at hm'⟩

theorem streamFinalize_alike : AnswersAlike s t (streamFinalize data s) (streamFinalize data t) := by
  have hav := avail_eq_of_ready_eq hss.keystream
  by_cases ha : avail s.ks < data.length
  · rw [streamFinalize_exhausted data s ha, streamFinalize_exhausted data t (hav ▸ ha)]
    exact h.raise (.self s) (.self t) _
  · obtain ⟨o, k, l, hs, ht, -⟩ := xorStream_of_ready_eq hss.keystream (Nat.le_of_not_lt ha)
    rw [streamFinalize_completes data o s k (by omega) hs, streamFinalize_completes data o t l (by omega) ht]
    exact h.answer { SameRecord.self s with } { SameRecord.self t with } rfl (absurd rfl)

theorem aeadEncUpdate_alike (hm : s.mode = .aead) :
    AnswersAlike s t (aeadEncUpdate data s) (aeadEncUpdate data t) := by
  have hr := hss.aead hm
  have hav := avail_eq_of_ready_eq hss.keystream
  by_cases ha : avail s.ks < data.length
  · rw [aeadEncUpdate_exhausted data s ha, aeadEncUpdate_exhausted data t (hav ▸ ha)]
    exact h.raise (.self s) (.self t) _
  · obtain ⟨o, k, l, hs, ht, hkl⟩ := xorStream_of_ready_eq hss.keystream (Nat.le_of_not_lt ha)
    rw [aeadEncUpdate_completes data o s k (by omega) hs, aeadEncUpdate_completes data o t l (by omega) ht]
    refine h.answer { SameRecord.closed s with } { SameRecord.closed t with } rfl fun _ => ?_
    exact ⟨by simpa using hss.engine, hkl, fun _ =>
      ⟨by simp, by simpa using hr.aadlen, by simp [hr.datalen], by simp [hr.closeAad_auth_eq], by simpa using hr.pend⟩⟩

theorem aeadEncFinalize_alike (hm : s.mode = .aead) :
    AnswersAlike s t (aeadEncFinalize data s) (aeadEncFinalize data t) := by
  have hr := hss.aead hm
  have hav := avail_eq_of_ready_eq hss.keystream
  by_cases ha : avail s.ks < data.length
  · rw [aeadEncFinalize_exhausted data s ha, aeadEncFinalize_exhausted data t (hav ▸ ha)]
    exact h.raise (.self s) (.self t) _
  · obtain ⟨o, k, l, hs, ht, -⟩ := xorStream_of_ready_eq hss.keystream (Nat.le_of_not_lt ha)
    obtain ⟨u, hu⟩ : ∃ u, u = { authUpdate o (closeAad s) with ks := k, datalen := s.datalen + len64 data } := ⟨_, rfl⟩
    obtain ⟨w, hw⟩ : ∃ w, w = { authUpdate o (closeAad t) with ks := l, datalen := t.datalen + len64 data } := ⟨_, rfl⟩
    have hlen : w.datalen = u.datalen := by simp [hu, hw, hr.datalen]
    have htag : (finishMac u.datalen.toNat w).1 = (finishMac u.datalen.toNat u).1 :=
      finishMac_tag_congr _ (by simp [hu, hw, h.cfg]) (by simp [hu, hw, hr.closeAad_auth_eq])
        (by simp [hu, hw, hr.aadlen])
    rw [aeadEncFinalize_completes data o s u k (by omega) hs hu, aeadEncFinalize_completes data o t w l (by omega) ht hw,
      hlen, htag]
    exact h.answer (by constructor <;> simp [hu]) (by constructor <;> simp [hw]) rfl (absurd rfl)

theorem aeadDecUpdate_alike (hm : s.mode = .aead) :
    AnswersAlike s t (aeadDecUpdate data s) (aeadDecUpdate data t) := by
  have hr := hss.aead hm
  have hcap : passesCapacity t data.length = passesCapacity s data.length := by
    unfold passesCapacity; rw [h.cfg, hr.pend]
  cases hc : passesCapacity s data.length with
  | true =>
    rw [aeadDecUpdate_overflows data s hc, aeadDecUpdate_overflows data t (hcap.trans hc)]
    exact h.raise (.self s) (.self t) _
  | false =>
    rw [aeadDecUpdate_completes data s hc, aeadDecUpdate_completes data t (hcap.trans hc)]
    refine h.answer { SameRecord.closed s with } { SameRecord.closed t with } rfl fun _ => ?_
    exact ⟨by simpa using hss.engine, by simpa using hss.keystream, fun _ =>
      ⟨by simp, by simpa using hr.aadlen, by simpa using hr.datalen, hr.closeAad_auth_eq, by simp [hr.pend]⟩⟩

theorem aeadDecFinalize_alike (hm : s.mode = .aead) :
    AnswersAlike s t (aeadDecFinalize data s) (aeadDecFinalize data t) := by
  have hr := hss.aead hm
  have hrec : received s data = received t data := by unfold received; rw [hr.pend]
  have hct : receivedCt s data = receivedCt t data := by unfold receivedCt; rw [hrec]
  have hpt : receivedTag s data = receivedTag t data := by unfold receivedTag; rw [hrec]
  have htag : computedTag s data = computedTag t data := by
    unfold computedTag; rw [h.cfg, hr.auth, hr.closingPad_eq, hct, hr.aadlen]
  rw [aeadDecFinalize_eq, aeadDecFinalize_eq, ← hrec, ← hct, ← hpt, ← htag, ← avail_eq_of_ready_eq hss.keystream]
  split
  · exact h.raise (.closed s) (.closed t) _
  split
  · exact h.raise (.verified data s) (.verified data t) _
  split
  · exact h.raise (.verified data s) (.verified data t) _
  next ha =>
    obtain ⟨o, k, l, hs, ht, -⟩ := xorStream_of_ready_eq hss.keystream (Nat.le_of_not_lt ha)
    rw [hs, ht]
    exact h.answer { SameRecord.verified data s with } { SameRecord.verified data t with } rfl (absurd rfl)

theorem update_alike (cap : U64) (hp : s.phase ≠ .uninit) :
    ∃ s' t', execUpdate data cap s = .next s' ∧ execUpdate data cap t = .next t' ∧ AnswersAlike s t s' t' := by
  have hp' : t.phase ≠ .uninit := h.phase ▸ hp
  have hsize := hss.getSize_eq data.length false
  by_cases hc : cap.toNat < getSize s data.length false
  · exact ⟨_, _, execUpdate_raise data cap s _ (prologue_short data cap false s hp hc),
      execUpdate_raise data cap t _ (prologue_short data cap false t hp' (hsize ▸ hc)), h.raise (.self s) (.self t) _⟩
  have hs := prologue_passes data cap false s hp (by omega)
  have ht := prologue_passes data cap false t hp' (by omega)
  have he' := hss.engine
  cases he : engineOf s.mode s.dir with
  | stream => exact ⟨_, _, execUpdate_stream data cap s hs he, execUpdate_stream data cap t ht (he' ▸ he),
      streamUpdate_alike h hss data ((engineOf_stream _ _).mp he)⟩
  | aeadEnc => exact ⟨_, _, execUpdate_aeadEnc data cap s hs he, execUpdate_aeadEnc data cap t ht (he' ▸ he),
      aeadEncUpdate_alike h hss data ((engineOf_aeadEnc _ _).mp he).1⟩
  | aeadDec => exact ⟨_, _, execUpdate_aeadDec data cap s hs he, execUpdate_aeadDec data cap t ht (he' ▸ he),
      aeadDecUpdate_alike h hss data ((engineOf_aeadDec _ _).mp he).1⟩

theorem finalize_alike (cap : U64) (hp : s.phase ≠ .uninit) :
    ∃ s' t', execFinalize data cap s = .next s' ∧ execFinalize data cap t = .next t' ∧ AnswersAlike s t s' t' := by
  have hp' : t.phase ≠ .uninit := h.phase ▸ hp
  have hsize := hss.getSize_eq data.length true
  by_cases hc : cap.toNat < getSize s data.length true
  · exact ⟨_, _, execFinalize_raise data cap s _ (prologue_short data cap true s hp hc),
      execFinalize_raise data cap t _ (prologue_short data cap true t hp' (hsize ▸ hc)), h.raise (.self s) (.self t) _⟩
  have hs := prologue_passes data cap true s hp (by omega)
  have ht := prologue_passes data cap true t hp' (by omega)
  have he' := hss.engine
  cases he : engineOf s.mode s.dir with
  | stream => exact ⟨_, _, execFinalize_stream data cap s hs he, execFinalize_stream data cap t ht (he' ▸ he),
      streamFinalize_alike h hss data⟩
  | aeadEnc => exact ⟨_, _, execFinalize_aeadEnc data cap s hs he, execFinalize_aeadEnc data cap t ht (he' ▸ he),
      aeadEncFinalize_alike h hss data ((engineOf_aeadEnc _ _).mp he).1⟩
  | aeadDec => exact ⟨_, _, execFinalize_aeadDec data cap s hs he, execFinalize_aeadDec data cap t ht (he' ▸ he),
      aeadDecFinalize_alike h hss data ((engineOf_aeadDec _ _).mp he).1⟩

end

/-! ### Every command, every sequence of commands -/

theorem Alike.phaseAfterOk_none {s t : State} (h : Alike s t) {i : Instr} (hn : phaseAfterOk i s = none) :
    phaseAfterOk i t = none := by
  cases i with
  | init => cases hn
  | updateAad =>
    by_cases hp : s.phase = .uninit
    · exact if_pos (.inl (h.phase ▸ hp))
    · simpa [phaseAfterOk, h.phase, (h.session hp).mode] using hn
  | update | finalize | getOutputSize => simpa [phaseAfterOk, h.phase] using hn

theorem exec_alike {s t : State} (h : Alike s t) (i : Instr) :
    ∃ s' t', exec i s = .next s' ∧ exec i t = .next t' ∧ AnswersAlike s t s' t' := by
  by_cases hn : phaseAfterOk i s = none
  · exact ⟨_, _, exec_illegal hn, exec_illegal (h.phaseAfterOk_none hn), h.raise (.self s) (.self t) _⟩
  cases i with
  | init dir mode key nonce ictr => exact execInit_alike h.toAlikeRecord dir mode key nonce ictr
  | updateAad data =>
    rw [phaseAfterOk_updateAad_none] at hn
    simp only [not_or, not_not, ne_eq] at hn
    obtain ⟨hu, hm, hd⟩ := hn
    have hp : s.phase = .initialized ∨ s.phase = .aad := by cases hp : s.phase <;> simp_all
    exact updateAad_alike h (h.session hu) data hp hm
  | update data cap =>
    have hp : s.phase ≠ .uninit := by simpa [phaseAfterOk] using hn
    exact update_alike h (h.session hp) data cap hp
  | finalize data cap =>
    have hp : s.phase ≠ .uninit := by simpa [phaseAfterOk] using hn
    exact finalize_alike h (h.session hp) data cap hp
  | getOutputSize n f =>
    have hp : s.phase ≠ .uninit := by simpa [phaseAfterOk] using hn
    exact query_alike h (h.session hp) n f hp

/-- Two states that are alike give the same responses `rs` to a sequence of commands. -/
theorem execAll_alike {s t : State} (h : Alike s t) (is : List Instr) :
    ∃ s' t' rs, execAll is s = .next s' ∧ execAll is t = .next t' ∧ rs.length = is.length ∧
      s'.responses = rs ++ s.responses ∧ t'.responses = rs ++ t.responses := by
  induction is generalizing s t with
  | nil => exact ⟨s, t, [], rfl, rfl, rfl, rfl, rfl⟩
  | cons i is ih =>
    obtain ⟨s1, t1, hs, ht, r, hrs, hrt, h1⟩ := exec_alike h i
    obtain ⟨s', t', rs, hs', ht', hlen, hrs', hrt'⟩ := ih h1
    refine ⟨s', t', rs ++ [r], by simp only [execAll, hs, hs'], by simp only [execAll, ht, ht'], by simp [hlen], ?_, ?_⟩
    · simp [hrs', hrs]
    · simp [hrt', hrt]

theorem lastResponses_of_append {s s' : State} {rs : List Response} (h : s'.responses = rs ++ s.responses) :
    lastResponses rs.length s' = rs.reverse := by
  unfold lastResponses
  rw [h, List.take_left]

/-- Settles O21: two states without a session are alike as soon as their configurations and records agree. -/
theorem staleRegistersAreUnobservable : Obligations.StaleRegistersAreUnobservable := by
  intro s t hs ht hcfg hkn hpair is
  have h : Alike s t := ⟨⟨hcfg, hkn, hpair⟩, hs.trans ht.symm, fun hp => absurd hs hp⟩
  obtain ⟨s', t', rs, hes, het, hlen, hrs, hrt⟩ := execAll_alike h is
  exact ⟨s', t', hes, het, by rw [← hlen, lastResponses_of_append hrs, lastResponses_of_append hrt]⟩

end Sys2Proof.Machine
end

section
/-! SUPPORT. What a step does with a frame (20_memory.md R70, R71, 30_encoding.md R90). -/

namespace Sys2Proof.Machine

open Sys2Proof

/-- The engine takes the oldest frame off its port and runs it. -/
theorem step_frame {s : State} {f : Bytes} {rest : List PortEvent} (h : s.port = .frame f :: rest) :
    step s = runFrame f { s with port := rest } := by
  simp only [step, accept, h, List.drop_one, List.tail_cons]

theorem runFrame_instr {f : Bytes} {i : Instr} (h : decode f = .instr i) (s : State) : runFrame f s = exec i s := by
  simp only [runFrame, h]

/-- Settles O6. -/
theorem stepRunsDecodedCommand : Obligations.StepRunsDecodedCommand := by
  intro s f rest i hp hd
  rw [step_frame hp, runFrame_instr hd]

end Sys2Proof.Machine
end

section
/-! SUPPORT. The keystream position law (20_memory.md R69). A position `p` is told by what is left: `p` bytes handed out
and `AVAIL` more make the whole budget of the session, `64 * (2^32 - B0)`. -/

namespace Sys2Proof.Machine

open Sys2Proof

/-! ### The byte at a position -/

theorem KeystreamLaw.after_ready {b0 : Nat} {k k' : Keystream} (hk : KeystreamLaw b0 k) (h : ready k = some k') :
    KeystreamLaw b0 k' := by
  unfold ready at h
  split at h
  · exact hk.after_refill h
  · cases h; exact hk

section
variable {b0 p : Nat} {k : Keystream} (hk : KeystreamLaw b0 k) (hp : p + avail k = 64 * (Config.maxBlocks - b0))
include hk hp

/-- A buffer that is not exhausted holds data block `p / 64` of the session, and `OFFSET` is `p % 64`. -/
theorem KeystreamLaw.buffered_byte (ho : k.offset.val < 64) :
    k.ksbuf.toList.getD k.offset.val 0 = keystreamByte k.start (k.ctr0 + BitVec.ofNat 32 b0) p := by
  obtain ⟨hb, hbuf⟩ := hk.buffer ho
  have hmax := k.blocks.isLt
  simp only [avail, Config.maxBlocks] at hp hmax
  have hblock : k.blocks.val = b0 + p / 64 + 1 := by omega
  have hoff : k.offset.val = p % 64 := by omega
  have hctr : k.ctr - 1 = k.ctr0 + BitVec.ofNat 32 b0 + BitVec.ofNat 32 (p / 64) := by
    rw [hk.counter, hblock, BitVec.ofNat_add, BitVec.ofNat_add, ← add_assoc, ← add_assoc]
    exact add_sub_cancel_right _ _
  have hlt : p % 64 < 64 := Nat.mod_lt p (by decide)
  rw [hbuf, hctr, hoff]
  simp [keystreamByte, List.getD_eq_getElem?_getD, hlt]

/-- The next byte handed out is the one at position `p`, whether it needs a refill or not. -/
theorem KeystreamLaw.takeByte_at {k' : Keystream} {b : Byte} (h : takeByte k = some (b, k')) :
    b = keystreamByte k.start (k.ctr0 + BitVec.ofNat 32 b0) p := by
  obtain ⟨-, hstart, hctr0⟩ := takeByte_avail k k' b h
  unfold takeByte at h
  split at h
  · cases h
  next k1 hr =>
    cases h
    have ho := ready_offset k k1 hr
    have hav : avail k = avail k1 := avail_eq_of_ready_eq (hr.trans (ready_of_lt k1 ho).symm)
    rw [advance_start] at hstart
    rw [advance_ctr0] at hctr0
    rw [(hk.after_ready hr).buffered_byte (hav ▸ hp) ho, hstart, hctr0]

end

/-- `CONSUME(n)` hands out the bytes at positions `p` to `p + n - 1`. -/
theorem KeystreamLaw.byteLoop_at {b0 p n : Nat} {k k' : Keystream} {o : Bytes} (hk : KeystreamLaw b0 k)
    (hp : p + avail k = 64 * (Config.maxBlocks - b0)) (h : byteLoop n k = some (o, k')) :
    o = (List.range' p n).map (keystreamByte k.start (k.ctr0 + BitVec.ofNat 32 b0)) := by
  induction n generalizing p k o with
  | zero => cases h; rfl
  | succ n ih =>
    simp only [byteLoop] at h
    split at h
    · cases h
    next b k1 ht =>
      split at h
      · cases h
      next bs k2 hb =>
        cases h
        obtain ⟨hav, hstart, hctr0⟩ := takeByte_avail k k1 b ht
        rw [hk.takeByte_at hp ht, ih (hk.after_takeByte ht) (p := p + 1) (by omega) hb, hstart, hctr0,
          List.range'_succ, List.map_cons]

/-! ### The position of a session -/

theorem keystreamPos_add_avail {s : State} (hk : KeystreamLaw (firstBlocks s.mode) s.ks) :
    keystreamPos s + avail s.ks = 64 * (Config.maxBlocks - firstBlocks s.mode) := by
  have hbase := hk.base
  have hbuffer : s.ks.offset.val < 64 → firstBlocks s.mode < s.ks.blocks.val := fun h => (hk.buffer h).1
  have hb := s.ks.blocks.isLt
  have ho := s.ks.offset.isLt
  simp only [keystreamPos, avail, Config.maxBlocks] at hb ⊢
  omega

/-- `FIRST` is the counter that `B0` blocks have brought `CTR` to (10_state.md R35, R40, R41). -/
theorem SessionInv.firstCounter_eq {s : State} (h : SessionInv s) :
    firstCounter s = s.ks.ctr0 + BitVec.ofNat 32 (firstBlocks s.mode) := by
  cases hm : s.mode with
  | stream => simp [firstCounter, firstBlocks, hm]
  | aead => simp [firstCounter, firstBlocks, hm, (h.aeadBase hm).1]

/-- What `CONSUME(n)` hands out in a session, and what it leaves. -/
theorem SessionInv.consume_at {s : State} (h : SessionInv s) {n : Nat} (hn : n ≤ avail s.ks) :
    ∃ k, consume n s.ks =
        some ((List.range' (keystreamPos s) n).map (keystreamByte s.ks.start (firstCounter s)), k) ∧
      keystreamPos { s with ks := k } = keystreamPos s + n ∧ avail s.ks = avail k + n := by
  have hk := h.keystreamLaw
  have hpos := keystreamPos_add_avail hk
  obtain ⟨o, k, hb⟩ := byteLoop_of_avail n hn
  obtain ⟨-, hav, -, -⟩ := byteLoop_spec n s.ks k o hb
  have hpos' : keystreamPos { s with ks := k } + avail k = 64 * (Config.maxBlocks - firstBlocks s.mode) :=
    keystreamPos_add_avail (s := { s with ks := k }) (byteLoop_keeps (fun _ _ _ => KeystreamLaw.after_takeByte) n hb hk)
  refine ⟨k, ?_, by omega, hav⟩
  rw [consume_eq_byteLoop, hb, hk.byteLoop_at hpos hb, h.firstCounter_eq]

/-- An INIT that is accepted hands out nothing (42_init_and_query.md R163, R164). -/
theorem exec_init_keystreamPos (dir : Dir) (mode : Mode) (key nonce : Bytes) (ictr : Word) {s : State}
    (h : initAccepted key nonce s) : ∃ t, exec (.init dir mode key nonce ictr) s = .next t ∧ keystreamPos t = 0 := by
  cases mode with
  | stream => exact ⟨_, execInit_stream dir key nonce ictr s h, rfl⟩
  | aead => exact ⟨_, execInit_aead dir key nonce ictr s h, rfl⟩

/-- Settles O36: what is available says the position, and the counter and buffer laws say the byte there. -/
theorem keystreamPositionLaw : Obligations.KeystreamPositionLaw := by
  refine ⟨fun s n _ h hn => ?_, fun dir mode key nonce ictr s h => exec_init_keystreamPos dir mode key nonce ictr h⟩
  obtain ⟨k, hc, hpos, hav⟩ := h.consume_at hn
  exact ⟨_, k, hc, by simp, fun i hi => by simp [hi], hpos, hav.symm⟩

end Sys2Proof.Machine
end

section
/-! SUPPORT. The tag comparison (45_aead_decrypt.md R216): the two words of `TAGEQ` spell their bytes. -/

namespace Sys2Proof

theorem toLE64_le64 {b : Bytes} (h : b.length = 8) : toLE64 (le64 b) = b := by
  have hlt := leNat_lt b
  rw [h] at hlt
  have hnat : (le64 b).toNat = leNat b := by
    rw [le64, BitVec.toNat_ofNat]
    exact Nat.mod_eq_of_lt hlt
  rw [toLE64, hnat, ← h, leBytes_leNat]

theorem le64_inj {a b : Bytes} (ha : a.length = 8) (hb : b.length = 8) : le64 a = le64 b ↔ a = b :=
  ⟨fun h => by rw [← toLE64_le64 ha, h, toLE64_le64 hb], congrArg le64⟩

theorem memRead_halves {b : Bytes} (h : b.length = 16) : memRead b 0 8 ++ memRead b 8 8 = b := by
  have hd : (b.drop 8).take 8 = b.drop 8 := List.take_of_length_le (by simp [h])
  rw [memRead, memRead, hd, List.drop_zero, List.take_append_drop]

namespace Machine

/-- `TAGEQ` decides equality of 16-byte sequences. -/
theorem tagEq_iff {c p : Bytes} (hc : c.length = 16) (hp : p.length = 16) : tagEq c p = true ↔ c = p := by
  have hlo : le64 (memRead c 0 8) = le64 (memRead p 0 8) ↔ memRead c 0 8 = memRead p 0 8 :=
    le64_inj (by simp [hc]) (by simp [hp])
  have hhi : le64 (memRead c 8 8) = le64 (memRead p 8 8) ↔ memRead c 8 8 = memRead p 8 8 :=
    le64_inj (by simp [hc]) (by simp [hp])
  simp only [tagEq, decide_eq_true_eq, tagDiff, BitVec.ofNat_eq_ofNat, BitVec.or_eq_zero_iff, BitVec.xor_eq_zero_iff, hlo,
    hhi]
  constructor
  · rintro ⟨h1, h2⟩
    rw [← memRead_halves hc, ← memRead_halves hp, h1, h2]
  · rintro rfl
    exact ⟨rfl, rfl⟩

end Machine

end Sys2Proof
end

section
/-! SUPPORT. The release gate of engine AEAD_DEC (20_memory.md R74, 45_aead_decrypt.md R212, R214): of the ten ways in
which a command completes, one puts out bytes in this engine, and it has found the tags equal. -/

namespace Sys2Proof.Machine

open Sys2Proof

/-- The newest response carries the output that was handed to `respond`. -/
theorem out_of_respond {st : Status} {v : U64} {o : Bytes} {s : State} {r : Response} {rs : List Response}
    (h : (respond st v o s).responses = r :: rs) : r.out = o :=
  (congrArg Response.out (List.head_eq_of_cons_eq h)).symm

theorem receivedCt_length (s : State) (data : Bytes) : (receivedCt s data).length = (received s data).length - 16 := by
  simp [receivedCt]

theorem receivedTag_length {s : State} {data : Bytes} (h : 16 ≤ (received s data).length) :
    (receivedTag s data).length = 16 := by
  rw [receivedTag, List.length_drop]
  omega

section
variable {i : Instr} {s t : State} (hd : Done i s t) (he : engineOf s.mode s.dir = .aeadDec)
include hd he

/-- In engine AEAD_DEC a response with output bytes is that of a FINALIZE that has found the tags equal. -/
theorem Done.dec_output {r : Response} (hr : t.responses = r :: s.responses) (ho : r.out ≠ []) :
    ∃ data outcap, i = .finalize data outcap ∧ 16 ≤ (received s data).length ∧
      (computedTag s data).toList = receivedTag s data ∧ r.out.length = (received s data).length - 16 := by
  cases hd with
  | initStream | initAead | updateAad | query | decUpdate => exact absurd (out_of_respond hr) ho
  | streamUpdate _ _ _ _ _ _ he' | streamFinalize _ _ _ _ _ _ he' | encUpdate _ _ _ _ _ _ he'
  | encFinalize _ _ _ _ _ _ _ he' => rw [he] at he'; cases he'
  | decFinalize data cap _ out k _ _ _ hl ht _ hx =>
    have htag := (tagEq_iff (by simp) (receivedTag_length hl)).mp ht
    have hlen := (xorStream_spec _ _ _ _ hx).1
    exact ⟨data, cap, rfl, hl, htag, by rw [out_of_respond hr, hlen, receivedCt_length]⟩

/-- UPDATE of engine AEAD_DEC only buffers. -/
theorem Done.dec_update_keystream {data : Bytes} {outcap : U64} (hi : i = .update data outcap) : t.ks = s.ks := by
  cases hd with
  | initStream | initAead | updateAad | query | streamFinalize | encFinalize | decFinalize => cases hi
  | streamUpdate _ _ _ _ _ _ he' | encUpdate _ _ _ _ _ _ he' => rw [he] at he'; cases he'
  | decUpdate => exact closeAad_ks s

end

/-- Settles O55: an error puts out nothing, and is no success. -/
theorem releaseGate : Obligations.ReleaseGate := by
  intro i s hm hdir
  have he : engineOf s.mode s.dir = .aeadDec := (engineOf_aeadDec _ _).mpr ⟨hm, hdir⟩
  rcases exec_cases i s with ⟨e, s1, hx, hs⟩ | ⟨t, hx, hd⟩
  · exact ⟨_, _, hx, congrArg _ hs.responses, fun ho => absurd rfl ho, nofun⟩
  · obtain ⟨v, o, hr⟩ := hd.responds_ok
    exact ⟨t, _, hx, hr, hd.dec_output he hr, fun _ _ hi _ => hd.dec_update_keystream he hi⟩

end Sys2Proof.Machine
end

section
/-! SUPPORT. The header word and the opcode map (30_encoding.md R93, R98): a word selects a row exactly when its fields are
those of the row's command. -/

namespace Sys2Proof

/-- A header word is its four fields: OPC, A, B and the must-be-zero rest. -/
theorem header_ext_iff {h w : Word} : h = w ↔ (h.extractLsb' 0 8).toNat = (w.extractLsb' 0 8).toNat ∧
    h.getLsbD 8 = w.getLsbD 8 ∧ h.getLsbD 9 = w.getLsbD 9 ∧ h.extractLsb' 10 22 = w.extractLsb' 10 22 := by
  refine ⟨by rintro rfl; simp, fun ⟨hopc, ha, hb, hz⟩ => BitVec.eq_of_getLsbD_eq fun i hi => ?_⟩
  rcases Nat.lt_or_ge i 8 with h8 | h8
  · have := congrArg (·.getLsbD i) (BitVec.eq_of_toNat_eq hopc)
    simpa [h8] using this
  obtain rfl | rfl | h10 : i = 8 ∨ i = 9 ∨ 10 ≤ i := by omega
  · exact ha
  · exact hb
  · have := congrArg (·.getLsbD (i - 10)) hz
    simpa [show i - 10 < 22 by omega, show 10 + (i - 10) = i by omega] using this

/-- The operation code of a command (R98). -/
def Op.code : Op → Nat
  | .init => 1
  | .updateAad => 2
  | .update => 3
  | .finalize => 4
  | .getOutputSize => 5

theorem Op.code_inj {o p : Op} (h : o.code = p.code) : o = p := by
  revert h
  cases o <;> cases p <;> decide

/-- What R93 and R98 ask of the header of a command: its operation code, and 0 in each bit that the command does not
use. -/
def HeaderFor (op : Op) (h : Word) : Prop :=
  (h.extractLsb' 0 8).toNat = op.code ∧ (h.getLsbD 8 = true → op = .init ∨ op = .getOutputSize) ∧
  (h.getLsbD 9 = true → op = .init) ∧ h.extractLsb' 10 22 = 0

/-- A row's mask and pattern say what the fields say. -/
theorem row_matches_iff {r : OpRow} (hr : r ∈ opTable) (h : Word) : h &&& r.mask = r.pattern ↔ HeaderFor r.op h := by
  have h8 : h.extractLsb' 0 8 &&& 255#8 = h.extractLsb' 0 8 := BitVec.and_allOnes
  have h22 : h.extractLsb' 10 22 &&& 4194303#22 = h.extractLsb' 10 22 := BitVec.and_allOnes
  rw [header_ext_iff, HeaderFor]
  simp only [opTable, List.mem_cons, List.not_mem_nil, or_false] at hr
  rcases hr with rfl | rfl | rfl | rfl | rfl <;> simp [BitVec.extractLsb'_and, h8, h22, Op.code]

theorem opRow_ext {r q : OpRow} (hr : r ∈ opTable) (hq : q ∈ opTable) (h : r.op = q.op) : r = q := by
  have hall : ∀ r ∈ opTable, ∀ q ∈ opTable, r.op = q.op → r = q := by decide
  exact hall r hr q hq h

/-- Settles O3: both rows' commands have the word's operation code. -/
theorem opcodeRowsDisjoint : Obligations.OpcodeRowsDisjoint := by
  intro h r q hr hq hrh hqh
  obtain ⟨hrc, -⟩ := (row_matches_iff hr h).mp hrh
  obtain ⟨hqc, -⟩ := (row_matches_iff hq h).mp hqh
  exact opRow_ext hr hq (Op.code_inj (hrc.symm.trans hqc))

theorem exists_opRow (op : Op) : ∃ r ∈ opTable, r.op = op := by
  cases op <;> decide

theorem selectOp_eq_some_iff (h : Word) (op : Op) : selectOp h = some op ↔ HeaderFor op h := by
  simp only [selectOp, Option.map_eq_some_iff]
  constructor
  · rintro ⟨r, hfind, rfl⟩
    exact (row_matches_iff (List.mem_of_find?_eq_some hfind) h).mp (by simpa using List.find?_some hfind)
  · intro hf
    obtain ⟨r, hr, rfl⟩ := exists_opRow op
    have hrh := (row_matches_iff hr h).mpr hf
    have hsome : (opTable.find? fun r => h &&& r.mask == r.pattern).isSome :=
      List.find?_isSome.mpr ⟨r, hr, by simpa using hrh⟩
    obtain ⟨q, hfind⟩ := Option.isSome_iff_exists.mp hsome
    have hqh : h &&& q.mask = q.pattern := by simpa using List.find?_some hfind
    exact ⟨q, hfind, congrArg _ (opcodeRowsDisjoint h q r (List.mem_of_find?_eq_some hfind) hr hqh hrh)⟩

theorem headerWord_fields (op : Op) (a b : Bool) :
    ((headerWord (BitVec.ofNat 32 op.code) a b).extractLsb' 0 8).toNat = op.code ∧
    (headerWord (BitVec.ofNat 32 op.code) a b).getLsbD 8 = a ∧
    (headerWord (BitVec.ofNat 32 op.code) a b).getLsbD 9 = b ∧
    (headerWord (BitVec.ofNat 32 op.code) a b).extractLsb' 10 22 = 0 := by
  cases op <;> cases a <;> cases b <;> decide

/-- The header of a command is spelled by its operation code and its bits A and B. -/
theorem HeaderFor.eq_headerWord {op : Op} {h : Word} (hf : HeaderFor op h) :
    h = headerWord (BitVec.ofNat 32 op.code) (h.getLsbD 8) (h.getLsbD 9) := by
  obtain ⟨hopc, -, -, hz⟩ := hf
  obtain ⟨hopc', ha, hb, hz'⟩ := headerWord_fields op (h.getLsbD 8) (h.getLsbD 9)
  exact header_ext_iff.mpr ⟨hopc.trans hopc'.symm, ha.symm, hb.symm, hz.trans hz'.symm⟩

end Sys2Proof
end

section
/-! SUPPORT. The decoder said once: which frames it reads a command from, and so which are ILLEGAL (30_encoding.md R100,
R101). -/

namespace Sys2Proof

/-- A frame has the length that its format and its own length fields give it (R100). -/
def LengthLaw (op : Op) (f : Bytes) : Prop := fixedLen op ≤ f.length ∧ f.length = frameLen op f

theorem four_le_fixedLen (op : Op) : 4 ≤ fixedLen op := by
  cases op <;> decide

/-- The decoder reads a command exactly from a frame with a row's header and the length of the row's format. -/
theorem decode_eq_instr_iff (f : Bytes) (i : Instr) : decode f = .instr i ↔
    ∃ op, HeaderFor op (headerOf f) ∧ LengthLaw op f ∧ operandsOf op (headerOf f) f = i := by
  simp only [← selectOp_eq_some_iff, LengthLaw, decode]
  split
  next hshort =>
    exact ⟨nofun, fun ⟨op, _, ⟨hfix, _⟩, _⟩ => absurd ((four_le_fixedLen op).trans hfix) (Nat.not_le.mpr hshort)⟩
  next =>
    split
    next hsel => simp [hsel]
    next op hsel =>
      simp only [hsel, Option.some.injEq, exists_eq_left']
      split
      next hlt => simp [Nat.not_le.mpr hlt]
      next hle =>
        split
        next hne => simp [hne]
        next heq => rw [and_iff_right ⟨Nat.not_lt.mp hle, not_not.mp heq⟩, Decoded.instr.injEq]

/-- A frame is ILLEGAL when no row's header and length law fit it. -/
theorem decode_illegal_iff (f : Bytes) :
    (∃ why, decode f = .illegal why) ↔ ¬∃ op, HeaderFor op (headerOf f) ∧ LengthLaw op f := by
  have hi : (∃ i, decode f = .instr i) ↔ ∃ op, HeaderFor op (headerOf f) ∧ LengthLaw op f := by
    simp only [decode_eq_instr_iff]
    exact ⟨fun ⟨_, op, hh, hl, _⟩ => ⟨op, hh, hl⟩, fun ⟨op, hh, hl⟩ => ⟨_, op, hh, hl, rfl⟩⟩
  rw [← hi]
  cases decode f <;> simp

theorem Op.exists_iff {P : Op → Prop} :
    (∃ op, P op) ↔ P .init ∨ P .updateAad ∨ P .update ∨ P .finalize ∨ P .getOutputSize := by
  constructor
  · rintro ⟨op, h⟩
    cases op <;> simp [h]
  · rintro (h | h | h | h | h) <;> exact ⟨_, h⟩

namespace Machine

theorem runFrame_illegal {f : Bytes} {why : Illegal} (h : decode f = .illegal why) (s : State) :
    runFrame f s = .next (illegalFrame s) := by
  simp only [runFrame, h]

/-- Settles O4: the causes of R101 are what is left when no row's header and length law fit; an ILLEGAL frame raises. -/
theorem illegalFrames : Obligations.IllegalFrames := by
  refine ⟨fun f => ?_, fun s f rest why hp hd => ?_⟩
  · rw [decode_illegal_iff, Op.exists_iff]
    simp only [HeaderFor, LengthLaw, fixedLen, frameLen, Op.code]
    generalize ((headerOf f).extractLsb' 0 8).toNat = opc, (headerOf f).getLsbD 8 = a, (headerOf f).getLsbD 9 = b,
      (headerOf f).extractLsb' 10 22 = z
    -- Where the must-be-zero bits are clear, for each value of A and B the rest is about OPC and lengths alone.
    by_cases hz : z = 0#22
    · cases a <;> cases b <;> simp [hz] <;> omega
    · simp [hz]
  · rw [step_frame hp, runFrame_illegal hd]
    exact ⟨_, rfl, rfl, rfl, rfl⟩

end Machine

end Sys2Proof
end

section
/-! SUPPORT. The two round trips (30_encoding.md R93 to R101): the fields of an encoded command read back as its operands,
and the fields of a frame, in order and each spelled again, are the whole frame. -/

namespace Sys2Proof

/-! ### Fields read from a frame and spelled again -/

theorem leBytes_leNat_of_length {b : Bytes} {n : Nat} (h : b.length = n) : leBytes n (leNat b) = b := by
  rw [← h, leBytes_leNat]

theorem leNat_leBytes_of_lt {n v : Nat} (h : v < 256 ^ n) : leNat (leBytes n v) = v := by
  rw [leNat_leBytes, Nat.mod_eq_of_lt h]

theorem leNat_memRead_lt (f : Bytes) (a n : Nat) : leNat (memRead f a n) < 256 ^ n :=
  (leNat_lt _).trans_le (Nat.pow_le_pow_right (by decide) (by simp))

section
variable {f : Bytes} {a b m n : Nat}

theorem memRead_append_memRead (h : a + m = b) : memRead f a m ++ memRead f b n = memRead f a (m + n) := by
  rw [memRead, memRead, memRead, List.take_add, List.drop_drop, h]

theorem toLE32_memRead (h : a + 4 ≤ f.length) : toLE32 (le32 (memRead f a 4)) = memRead f a 4 := by
  have hlen : (memRead f a 4).length = 4 := by rw [memRead_length]; omega
  rw [toLE32, le32, BitVec.toNat_ofNat, show 2 ^ 32 = 256 ^ 4 by decide, Nat.mod_eq_of_lt (leNat_memRead_lt f a 4),
    leBytes_leNat_of_length hlen]

theorem toLE64_memRead (h : a + 8 ≤ f.length) : toLE64 (le64 (memRead f a 8)) = memRead f a 8 :=
  toLE64_le64 (by rw [memRead_length]; omega)

/-- The length field of a byte operand, `n` bytes at `b`, spells the length of the operand, which begins at `a`. -/
theorem leBytes_length_memRead (hb : b + n ≤ f.length) (ha : a + leNat (memRead f b n) ≤ f.length) :
    leBytes n (memRead f a (leNat (memRead f b n))).length = memRead f b n := by
  have hlen : (memRead f a (leNat (memRead f b n))).length = leNat (memRead f b n) := by rw [memRead_length]; omega
  rw [hlen, leBytes_leNat_of_length (by rw [memRead_length]; omega)]

end

/-- A header spells its operation code and its bits A and B. -/
theorem toLE32_headerWord {op : Op} {f : Bytes} {a b : Bool} (hh : HeaderFor op (headerOf f)) (h : 4 ≤ f.length)
    (ha : (headerOf f).getLsbD 8 = a) (hb : (headerOf f).getLsbD 9 = b) :
    toLE32 (headerWord (BitVec.ofNat 32 op.code) a b) = memRead f 0 4 := by
  rw [← ha, ← hb, ← hh.eq_headerWord, headerOf, toLE32_memRead (by omega)]

@[simp] theorem dirOfBit_eq_dec (a : Bool) : decide (dirOfBit a = .dec) = a := by
  cases a <;> decide

@[simp] theorem modeOfBit_eq_aead (b : Bool) : decide (modeOfBit b = .aead) = b := by
  cases b <;> decide

@[simp] theorem dirOfBit_decide (d : Dir) : dirOfBit (decide (d = .dec)) = d := by
  cases d <;> decide

@[simp] theorem modeOfBit_decide (m : Mode) : modeOfBit (decide (m = .aead)) = m := by
  cases m <;> decide

/-! ### From the frame to the command and back -/

theorem wellFormed_operandsOf (op : Op) (h : Word) (f : Bytes) : (operandsOf op h f).wellFormed = true := by
  have hlt (a b n : Nat) : (memRead f a (leNat (memRead f b n))).length < 256 ^ n :=
    (by simp : _ ≤ leNat (memRead f b n)).trans_lt (leNat_memRead_lt f b n)
  cases op with
  | init =>
    simp only [operandsOf, Instr.wellFormed, Bool.and_eq_true, decide_eq_true_eq]
    exact ⟨hlt _ _ 4, hlt _ _ 4⟩
  | updateAad | update | finalize => exact decide_eq_true (hlt _ _ 8)
  | getOutputSize => rfl

/-- The fields of a frame that obeys R93 and R100 stand one after the other and fill it, so spelling the operands read
from them gives the frame. -/
theorem encode_operandsOf {op : Op} {f : Bytes} (hh : HeaderFor op (headerOf f)) (hl : LengthLaw op f) :
    encode (operandsOf op (headerOf f) f) = f := by
  obtain ⟨hfix, hlen⟩ := hl
  have hhead {a b : Bool} := toLE32_headerWord (a := a) (b := b) hh ((four_le_fixedLen op).trans hfix)
  obtain ⟨-, hA, hB, -⟩ := hh
  conv_rhs => rw [← memRead_all f _ hlen]
  cases op with
  | init =>
    simp only [fixedLen, frameLen] at hfix hlen ⊢
    have hhead := hhead rfl rfl
    simp (disch := omega) only [operandsOf, encode, dirOfBit_eq_dec, modeOfBit_eq_aead, Op.code, BitVec.ofNat_eq_ofNat,
      leBytes_length_memRead, toLE32_memRead] at hhead ⊢
    simp (disch := omega) only [hhead, memRead_append_memRead]
  | updateAad | update | finalize =>
    simp only [fixedLen, frameLen] at hfix hlen ⊢
    simp only [reduceCtorEq, or_self, imp_false, Bool.not_eq_true] at hA hB
    have hhead := hhead hA hB
    simp (disch := omega) only [operandsOf, encode, Op.code, BitVec.ofNat_eq_ofNat, leBytes_length_memRead,
      toLE64_memRead] at hhead ⊢
    simp (disch := omega) only [hhead, memRead_append_memRead]
  | getOutputSize =>
    simp only [fixedLen, frameLen] at hfix hlen ⊢
    simp only [reduceCtorEq, imp_false, Bool.not_eq_true] at hB
    have hhead := hhead rfl hB
    simp (disch := omega) only [operandsOf, encode, Op.code, BitVec.ofNat_eq_ofNat, toLE64_memRead] at hhead ⊢
    simp (disch := omega) only [hhead, memRead_append_memRead]

/-- Settles O2: the operands that the decoder reads fit their length fields and spell the frame again. -/
theorem encodeOfDecode : Obligations.EncodeOfDecode := by
  intro f i hd
  obtain ⟨op, hh, hl, rfl⟩ := (decode_eq_instr_iff f i).mp hd
  exact ⟨wellFormed_operandsOf op _ f, encode_operandsOf hh hl⟩

/-! ### From the command to the frame and back -/

theorem headerFor_encode (i : Instr) : HeaderFor i.op (headerOf (encode i)) := by
  rw [← selectOp_eq_some_iff]
  cases i with
  | init dir mode key nonce ictr => exact Laws.EncodeSelects.init dir mode key nonce ictr
  | updateAad data => exact Laws.EncodeSelects.updateAad data
  | update data outcap => exact Laws.EncodeSelects.update data outcap
  | finalize data outcap => exact Laws.EncodeSelects.finalize data outcap
  | getOutputSize n isfinal => exact Laws.EncodeSelects.getOutputSize n isfinal

theorem memRead_suffix {x y : Bytes} {a n : Nat} (hx : x.length = a) (hy : y.length = n) :
    memRead (x ++ y) a n = y := by
  rw [memRead_append_right _ _ _ _ hx.le, hx, Nat.sub_self, memRead_all _ _ hy]

/-- The length fields of an encoded command give the length of the frame and place each operand where it was put. -/
theorem encode_fields {i : Instr} (hw : i.wellFormed = true) :
    LengthLaw i.op (encode i) ∧ operandsOf i.op (headerOf (encode i)) (encode i) = i := by
  cases i with
  | init dir mode key nonce ictr =>
    simp only [Instr.wellFormed, Bool.and_eq_true, decide_eq_true_eq] at hw
    have hkey := leNat_leBytes_of_lt (n := 4) hw.1
    have hnonce := leNat_leBytes_of_lt (n := 4) hw.2
    have hlast : memRead (encode (.init dir mode key nonce ictr)) (16 + key.length) nonce.length = nonce :=
      memRead_suffix (by simp; omega) rfl
    obtain ⟨-, hA, hB, -⟩ := headerWord_fields .init (decide (dir = .dec)) (decide (mode = .aead))
    simp only [Op.code, BitVec.ofNat_eq_ofNat, encode, List.append_assoc] at hA hB hlast
    simp [LengthLaw, fixedLen, frameLen, operandsOf, Instr.op, encode, headerOf_toLE32, memRead_append_right,
      memRead_append_left, hkey, hnonce, le32_toLE32, hlast, hA, hB, ← Nat.add_assoc,
      Nat.le_add_right_of_le, -BitVec.getLsbD_eq_getElem]
  | updateAad data | update data outcap | finalize data outcap =>
    simp only [Instr.wellFormed, decide_eq_true_eq] at hw
    have hdata := leNat_leBytes_of_lt (n := 8) hw
    simp [LengthLaw, fixedLen, frameLen, operandsOf, Instr.op, encode, memRead_append_right, memRead_append_left,
      memRead_all, hdata, le64_toLE64, ← Nat.add_assoc]
  | getOutputSize n isfinal =>
    obtain ⟨-, hA, -⟩ := headerWord_fields .getOutputSize isfinal false
    simpa [LengthLaw, fixedLen, frameLen, operandsOf, Instr.op, encode, headerOf_toLE32, memRead_append_right, memRead_all,
      le64_toLE64, Op.code] using hA

/-- Settles O1: an encoded command has its row's header and length, and its fields read back as its operands. -/
theorem decodeOfEncode : Obligations.DecodeOfEncode := by
  intro i hw
  obtain ⟨hl, ho⟩ := encode_fields hw
  exact (decode_eq_instr_iff _ _).mpr ⟨i.op, headerFor_encode i, hl, ho⟩

/-- Settles O5: each of the five frames is run through the decoder. -/
theorem workedFramesDecode : Obligations.WorkedFramesDecode := by
  unfold Obligations.WorkedFramesDecode
  exact ⟨by decide, by decide, by decide, by decide, by decide⟩

end Sys2Proof
end

section
/-! SUPPORT. The response of a command that completes (30_encoding.md R104, R105), and that UPDATE and FINALIZE complete
where the table of 60_exceptions.md R245 says OK. -/

namespace Sys2Proof.Machine

open Sys2Proof

/-! ### The fields of the response -/

/-- `VALUE` and `OUT` of a successful command (R104), the output length by the sizing contract on the state before the
command (R105). -/
def FieldsAfterOk (i : Instr) (s : State) (v : U64) (out : Bytes) : Prop :=
  match i with
  | .init _ _ _ _ _ | .updateAad _ => v = 0 ∧ out = []
  | .update data _ => v.toNat = out.length ∧ out.length = getSize s data.length false
  | .finalize data _ => v.toNat = out.length ∧ out.length = getSize s data.length true
  | .getOutputSize n isfinal => v.toNat = getSize s n.toNat isfinal ∧ out = []

theorem respond_newest {st : Status} {v : U64} {o : Bytes} {s : State} {r : Response} {rs : List Response}
    (h : (respond st v o s).responses = r :: rs) : r = ⟨st, v, o⟩ :=
  (List.head_eq_of_cons_eq h).symm

/-- A length within a 64-bit capacity is not cut. -/
theorem toNat_ofNat_of_le {n : Nat} {cap : U64} (h : n ≤ cap.toNat) : (BitVec.ofNat 64 n).toNat = n := by
  rw [BitVec.toNat_ofNat, Nat.mod_eq_of_lt (h.trans_lt cap.isLt)]

/-- The response of a command that completes. -/
theorem Done.fields {i : Instr} {s t : State} (hd : Done i s t) {r : Response} (hr : t.responses = r :: s.responses) :
    FieldsAfterOk i s r.value r.out := by
  cases hd with
  | initStream | initAead | updateAad => cases respond_newest hr; exact ⟨rfl, rfl⟩
  | query _ _ _ _ hv =>
    cases respond_newest hr
    exact ⟨toNat_ofNat_of_le (cap := .allOnes 64) (by simpa using hv), rfl⟩
  | streamUpdate _ _ _ _ _ _ he hc _ hx | streamFinalize _ _ _ _ _ _ he hc _ hx =>
    cases respond_newest hr
    have hlen := (xorStream_spec _ _ _ _ hx).1
    exact ⟨(toNat_ofNat_of_le hc).trans hlen.symm, hlen.trans (getSize_stream s _ _ he).symm⟩
  | encUpdate _ _ _ _ _ _ he hc _ hx =>
    cases respond_newest hr
    have hlen := (xorStream_spec _ _ _ _ hx).1
    exact ⟨(toNat_ofNat_of_le hc).trans hlen.symm, hlen.trans (getSize_aeadEnc s _ false he).symm⟩
  | encFinalize data _ _ out _ t _ he hc _ hx =>
    cases respond_newest hr
    have hlen : (out ++ (finishMac t.datalen.toNat t).1.toList).length = data.length + 16 := by
      rw [List.length_append, (xorStream_spec _ _ _ _ hx).1, Vector.length_toList]
    exact ⟨(toNat_ofNat_of_le hc).trans hlen.symm, hlen.trans (getSize_aeadEnc s _ true he).symm⟩
  | decUpdate _ _ _ _ he => cases respond_newest hr; exact ⟨rfl, (getSize_aeadDec s _ false he).symm⟩
  | decFinalize data _ _ _ _ _ he hc _ _ _ hx =>
    cases respond_newest hr
    have hlen := (xorStream_spec _ _ _ _ hx).1
    have hct : (receivedCt s data).length = s.pend.length + data.length - 16 := by
      rw [receivedCt_length, received, List.length_append]
    rw [← hct] at hc
    exact ⟨(toNat_ofNat_of_le hc).trans hlen.symm, hlen.trans (hct.trans (getSize_aeadDec s _ true he).symm)⟩

/-- Settles O18: an error responds with value 0 and no output, a command that completes with the fields of its row. -/
theorem responseFields : Obligations.ResponseFields := by
  intro i s
  have hbytes (r : Response) : (responseBytes r).length = 12 + r.out.length := by simp [responseBytes]; omega
  rcases exec_cases i s with ⟨e, s1, hx, hs⟩ | ⟨t, hx, hd⟩
  · exact ⟨_, _, hx, congrArg _ hs.responses, rfl, hbytes _, fun _ => ⟨rfl, rfl⟩, nofun⟩
  · obtain ⟨v, o, hr⟩ := hd.responds_ok
    refine ⟨t, _, hx, hr, rfl, hbytes _, fun h => absurd rfl h, fun _ => ?_⟩
    have hf := hd.fields hr
    cases i with
    | init | updateAad | getOutputSize => exact hf
    | update | finalize => exact hf.1

/-! ### UPDATE and FINALIZE that the table of R245 lets pass -/

theorem err_ite_eq_ok {c : Prop} [Decidable c] {e : ErrorKind} {st : Status} :
    (if c then .err e else st) = Status.ok ↔ ¬c ∧ st = .ok := by
  split <;> simp [*]

/-- The tests of `statusOf` are those that `exec` makes, so UPDATE completes where all of them pass. -/
theorem update_completes {data : Bytes} {cap : U64} {s : State} (h : statusOf (.update data cap) s = .ok) :
    ∃ t, exec (.update data cap) s = .next t ∧ Done (.update data cap) s t := by
  simp only [statusOf, err_ite_eq_ok] at h
  obtain ⟨hp, h⟩ := h
  have hpro (hc : getSize s data.length false ≤ cap.toNat) := prologue_passes data cap false s hp hc
  cases he : engineOf s.mode s.dir with
  | stream =>
    simp only [he, err_ite_eq_ok, Nat.not_lt, and_true] at h
    obtain ⟨hc, ha⟩ := h
    obtain ⟨out, k, hx⟩ := xorStream_of_avail ha
    refine ⟨_, ?_, .streamUpdate data cap s out k hp he hc ha hx⟩
    rw [← streamUpdate_completes data out s k ha hx]
    exact execUpdate_stream data cap s (hpro (by rwa [getSize_stream s _ _ he])) he
  | aeadEnc =>
    simp only [he, err_ite_eq_ok, Nat.not_lt, and_true] at h
    obtain ⟨hc, ha⟩ := h
    obtain ⟨out, k, hx⟩ := xorStream_of_avail ha
    refine ⟨_, ?_, .encUpdate data cap s out k hp he hc ha hx⟩
    rw [← aeadEncUpdate_completes data out s k ha hx]
    exact execUpdate_aeadEnc data cap s (hpro (by simpa [getSize_aeadEnc s _ _ he] using hc)) he
  | aeadDec =>
    have hfits : passesCapacity s data.length = false := by
      rw [← Bool.not_eq_true, passesCapacity_iff]
      rintro ⟨c, hcap, hlt⟩
      simp [he, hcap, hlt] at h
    refine ⟨_, ?_, .decUpdate data cap s hp he hfits⟩
    rw [← aeadDecUpdate_completes data s hfits]
    exact execUpdate_aeadDec data cap s (hpro (by simp [getSize_aeadDec s _ _ he])) he

theorem aeadDecFinalize_completes {data out : Bytes} {s : State} {k : Keystream} (hl : 16 ≤ (received s data).length)
    (ht : tagEq (computedTag s data).toList (receivedTag s data) = true) (ha : (receivedCt s data).length ≤ avail s.ks)
    (hx : xorStream (receivedCt s data) s.ks = some (out, k)) :
    aeadDecFinalize data s = respond .ok (len64 (receivedCt s data)) out
      { decVerified data s with ks := k, aadlen := 0, datalen := 0, pend := [], phase := .uninit } := by
  rw [aeadDecFinalize_eq, if_neg (Nat.not_lt.mpr hl), ht, if_neg (by simp), if_neg (Nat.not_lt.mpr ha), hx]

/-- As `update_completes`, for FINALIZE; the table compares the tags by equality, where `exec` uses `TAGEQ`. -/
theorem finalize_completes {data : Bytes} {cap : U64} {s : State} (h : statusOf (.finalize data cap) s = .ok) :
    ∃ t, exec (.finalize data cap) s = .next t ∧ Done (.finalize data cap) s t := by
  simp only [statusOf, err_ite_eq_ok] at h
  obtain ⟨hp, h⟩ := h
  have hpro (hc : getSize s data.length true ≤ cap.toNat) := prologue_passes data cap true s hp hc
  cases he : engineOf s.mode s.dir with
  | stream =>
    simp only [he, err_ite_eq_ok, Nat.not_lt, and_true] at h
    obtain ⟨hc, ha⟩ := h
    obtain ⟨out, k, hx⟩ := xorStream_of_avail ha
    refine ⟨_, ?_, .streamFinalize data cap s out k hp he hc ha hx⟩
    rw [← streamFinalize_completes data out s k ha hx]
    exact execFinalize_stream data cap s (hpro (by rwa [getSize_stream s _ _ he])) he
  | aeadEnc =>
    simp only [he, err_ite_eq_ok, Nat.not_lt, and_true] at h
    obtain ⟨hc, ha⟩ := h
    obtain ⟨out, k, hx⟩ := xorStream_of_avail ha
    refine ⟨_, ?_, .encFinalize data cap s out k _ hp he hc ha hx rfl⟩
    rw [← aeadEncFinalize_completes data out s _ k ha hx rfl]
    exact execFinalize_aeadEnc data cap s (hpro (by simpa [getSize_aeadEnc s _ _ he] using hc)) he
  | aeadDec =>
    simp only [he, err_ite_eq_ok, Nat.not_lt, ne_eq, not_not, and_true] at h
    obtain ⟨hc, hl, htag, ha⟩ := h
    have htageq := (tagEq_iff (by simp) (receivedTag_length hl)).mpr htag
    obtain ⟨out, k, hx⟩ := xorStream_of_avail ha
    refine ⟨_, ?_, .decFinalize data cap s out k hp he hc hl htageq ha hx⟩
    rw [← aeadDecFinalize_completes hl htageq ha hx]
    exact execFinalize_aeadDec data cap s (hpro (by simpa [getSize_aeadDec s _ _ he] using hc)) he

/-- Settles O19: a command that the table lets pass completes, and its output has the length of its row. -/
theorem outputLengthIsGetSize : Obligations.OutputLengthIsGetSize := by
  intro data cap s
  refine ⟨fun h => ?_, fun h => ?_⟩
  · obtain ⟨t, hx, hd⟩ := update_completes h
    obtain ⟨v, o, hr⟩ := hd.responds_ok
    obtain ⟨-, hsize⟩ := hd.fields hr
    exact ⟨t, _, hx, hr, rfl, hsize, hsize.trans (by unfold getSize; cases engineOf s.mode s.dir <;> rfl)⟩
  · obtain ⟨t, hx, hd⟩ := finalize_completes h
    obtain ⟨v, o, hr⟩ := hd.responds_ok
    obtain ⟨-, hsize⟩ := hd.fields hr
    exact ⟨t, _, hx, hr, rfl, hsize, hsize.trans (by unfold getSize; cases engineOf s.mode s.dir <;> rfl)⟩

end Sys2Proof.Machine
end

section
/-! SUPPORT. The quarter-round and the rounds (40_block_transform.md R121 to R125). `QR` reads the four words at its
indices, works on them alone and writes them back; so it has an inverse as soon as the work on four words has one. -/

namespace Sys2Proof.Machine

open Sys2Proof

/-! ### The quarter-round on four words and its inverse -/

/-- A rotation by `m` and one by the rest of 32 are a full turn: bit `i` comes back through the right shift of the second
rotation when `i < n`, through its left shift otherwise. -/
theorem rotl32_rotl32_of_add {m n : Nat} (h : m + n = 32) (v : Word) : rotl32 (rotl32 v m) n = v := by
  have hm : 32 - m = n := by omega
  have hn : 32 - n = m := by omega
  ext i hi
  simp only [rotl32, hm, hn, BitVec.getElem_or, BitVec.getElem_shiftLeft, BitVec.getElem_ushiftRight,
    BitVec.getLsbD_or, BitVec.getLsbD_shiftLeft, BitVec.getLsbD_ushiftRight]
  have hout : v.getLsbD (n + (m + i)) = false := BitVec.getLsbD_of_ge v _ (by omega)
  by_cases hin : i < n
  · have hlow : m + i < 32 := by omega
    simp [hin, hlow, hi, hout]
  · have hhigh : i - n < m ∧ n + (i - n) = i ∧ ¬ m + i < 32 := by omega
    simp [hin, hhigh, hi, hout]

/-- The twelve steps undone, the last one first. -/
def unquarter (q : Quad) : Quad :=
  let b := rotl32 q.b 25 ^^^ q.c
  let c := q.c - q.d
  let d := rotl32 q.d 24 ^^^ q.a
  let a := q.a - b
  let b := rotl32 b 20 ^^^ c
  let c := c - d
  let d := rotl32 d 16 ^^^ a
  ⟨a - b, b, c, d⟩

theorem unquarter_quarter : Function.LeftInverse unquarter quarter := fun q => by
  simp [unquarter, quarter, rotl32_rotl32_of_add]

theorem quarter_unquarter : Function.LeftInverse quarter unquarter := fun q => by
  simp [unquarter, quarter, rotl32_rotl32_of_add]

theorem quarter_bijective : Function.Bijective quarter :=
  ⟨unquarter_quarter.injective, quarter_unquarter.surjective⟩

/-! ### Four words of the working array -/

/-- The four words at the indices `a, b, c, d`. -/
def quadAt (a b c d : Fin 16) (x : Words) : Quad := ⟨x[a], x[b], x[c], x[d]⟩

/-- The working array with the four words of `q` written at the indices `a, b, c, d`. -/
def putQuad (a b c d : Fin 16) (q : Quad) (x : Words) : Words := (((x.set a q.a).set b q.b).set c q.c).set d q.d

section
variable {a b c d : Fin 16}

theorem notMem_four_iff {i : Fin 16} :
    i ∉ [a, b, c, d] ↔ a.val ≠ i.val ∧ b.val ≠ i.val ∧ c.val ≠ i.val ∧ d.val ≠ i.val := by
  simp [Fin.ext_iff, eq_comm]

theorem getElem_putQuad_of_notMem {i : Fin 16} (hi : i ∉ [a, b, c, d]) (q : Quad) (x : Words) :
    (putQuad a b c d q x)[i] = x[i] := by
  simp [putQuad, notMem_four_iff.mp hi]

theorem set_putQuad_of_notMem {i : Fin 16} (hi : i ∉ [a, b, c, d]) (v : Word) (q : Quad) (x : Words) :
    (putQuad a b c d q x).set i v = putQuad a b c d q (x.set i v) := by
  obtain ⟨ha, hb, hc, hd⟩ := notMem_four_iff.mp hi
  rw [putQuad, Vector.set_comm _ _ hd, Vector.set_comm _ _ hc, Vector.set_comm _ _ hb, Vector.set_comm _ _ ha, putQuad]

theorem quadAt_putQuad (h : [a, b, c, d].Nodup) (q : Quad) (x : Words) :
    quadAt a b c d (putQuad a b c d q x) = q := by
  simp only [List.nodup_cons, List.mem_cons, List.not_mem_nil, or_false, not_or, Fin.ext_iff] at h
  obtain ⟨⟨hab, hac, had⟩, ⟨hbc, hbd⟩, hcd, -⟩ := h
  simp [quadAt, putQuad, Ne.symm, hab, hac, had, hbc, hbd, hcd]

/-- The second write covers every word of the first. -/
theorem putQuad_putQuad (q r : Quad) (x : Words) : putQuad a b c d r (putQuad a b c d q x) = putQuad a b c d r x := by
  ext i hi
  simp only [putQuad, Vector.getElem_set]
  split_ifs <;> rfl

theorem putQuad_quadAt (x : Words) : putQuad a b c d (quadAt a b c d x) x = x := by
  simp [putQuad, quadAt]

/-! ### The quarter-round on the working array -/

/-- Both sides are the body of `qr`. -/
theorem qr_eq_putQuad (x : Words) : qr a b c d x = putQuad a b c d (quarter (quadAt a b c d x)) x := rfl

theorem quadAt_qr (h : [a, b, c, d].Nodup) (x : Words) :
    quadAt a b c d (qr a b c d x) = quarter (quadAt a b c d x) := by
  rw [qr_eq_putQuad, quadAt_putQuad h]

/-- Working on four words with a left inverse of `f` undoes working on them with `f`. -/
theorem putQuad_leftInverse (h : [a, b, c, d].Nodup) {f g : Quad → Quad} (hgf : Function.LeftInverse g f) :
    Function.LeftInverse (fun x => putQuad a b c d (g (quadAt a b c d x)) x)
      (fun x => putQuad a b c d (f (quadAt a b c d x)) x) := fun x => by
  simp only [quadAt_putQuad h, hgf _, putQuad_putQuad, putQuad_quadAt]

theorem qr_bijective (h : [a, b, c, d].Nodup) : Function.Bijective (qr a b c d) :=
  ⟨(putQuad_leftInverse h unquarter_quarter).injective, (putQuad_leftInverse h quarter_unquarter).surjective⟩

end

/-- Settles O30: the four words are those of `quarter`, whose definition is the twelve steps. -/
theorem quarterRoundOnTheArray : Obligations.QuarterRoundOnTheArray := by
  intro a b c d x h
  have hq := quadAt_qr h x
  exact ⟨congrArg Quad.a hq, congrArg Quad.b hq, congrArg Quad.c hq, congrArg Quad.d hq,
    fun i hi => getElem_putQuad_of_notMem hi _ x⟩

section
variable {a b c d e f g h : Fin 16}

/-- Each word of the second group passes the four words of the first. -/
theorem putQuad_comm (hdis : [a, b, c, d].Disjoint [e, f, g, h]) (q r : Quad) (x : Words) :
    putQuad a b c d q (putQuad e f g h r x) = putQuad e f g h r (putQuad a b c d q x) := by
  have hn : ∀ i ∈ [e, f, g, h], i ∉ [a, b, c, d] := fun i hi hi' => hdis hi' hi
  simp only [List.forall_mem_cons] at hn
  obtain ⟨he, hf, hg, hh, -⟩ := hn
  simp only [putQuad.eq_1 e f g h, set_putQuad_of_notMem, he, hf, hg, hh, not_false_eq_true]

theorem quadAt_putQuad_of_disjoint (hdis : [a, b, c, d].Disjoint [e, f, g, h]) (q : Quad) (x : Words) :
    quadAt a b c d (putQuad e f g h q x) = quadAt a b c d x := by
  have hn : ∀ i ∈ [a, b, c, d], i ∉ [e, f, g, h] := fun i hi hi' => hdis hi hi'
  simp only [List.forall_mem_cons] at hn
  obtain ⟨ha, hb, hc, hd, -⟩ := hn
  simp only [quadAt, getElem_putQuad_of_notMem, ha, hb, hc, hd, not_false_eq_true]

end

/-- Settles O31: each group reads no word that the other writes, and their writes commute. -/
theorem quarterRoundsCommute : Obligations.QuarterRoundsCommute := by
  intro a b c d e f g h x hn
  have hdis : [a, b, c, d].Disjoint [e, f, g, h] := (List.nodup_append'.mp hn).2.2
  simp only [qr_eq_putQuad, quadAt_putQuad_of_disjoint hdis, quadAt_putQuad_of_disjoint hdis.symm, putQuad_comm hdis]

/-! ### The rounds -/

theorem colRound_bijective : Function.Bijective colRound :=
  (qr_bijective (by decide)).comp ((qr_bijective (by decide)).comp
    ((qr_bijective (by decide)).comp (qr_bijective (by decide))))

theorem diagRound_bijective : Function.Bijective diagRound :=
  (qr_bijective (by decide)).comp ((qr_bijective (by decide)).comp
    ((qr_bijective (by decide)).comp (qr_bijective (by decide))))

theorem doubleRound_bijective : Function.Bijective doubleRound := diagRound_bijective.comp colRound_bijective

theorem doubleRounds_bijective (n : Nat) : Function.Bijective (doubleRounds n) := by
  induction n with
  | zero => exact Function.bijective_id
  | succ n ih => exact ih.comp doubleRound_bijective

/-- Settles O32: the quarter-round is undone step by step, and a double-round is eight of them, each on four distinct
indices. -/
theorem roundsArePermutations : Obligations.RoundsArePermutations := ⟨quarter_bijective, doubleRounds_bijective⟩

end Sys2Proof.Machine
end

section
/-! SUPPORT. The words of the start state, the output words and the bytes of a block (40_block_transform.md R120, R126 to
R128). -/

namespace Sys2Proof.Machine

open Sys2Proof

/-- Settles O29: each range of indices selects its row of MKSTART. -/
theorem startStateWords : Obligations.StartStateWords := by
  intro sigma key nonce
  unfold mkStart
  refine ⟨fun i => ?_, fun k => ?_, ?_, fun k => ?_⟩
  · simp
  · have hkey : 4 + k.val < 12 := by omega
    simp [hkey]
  · simp
  · have hnonce : ¬ 13 + k.val < 4 ∧ ¬ 13 + k.val < 12 ∧ 13 + k.val ≠ 12 := by omega
    simp [hnonce]

theorem getElem_blockWords (start : Words) (ctr : Word) {i : Nat} (hi : i < 16) :
    (blockWords start ctr)[i] = (doubleRounds 10 (initWords start ctr))[i] + (initWords start ctr)[i] := by
  simp [blockWords]

/-- The counter overwrites the placeholder (R126 step 1). -/
theorem initWords_set_placeholder (start : Words) (ctr w : Word) :
    initWords (start.set 12 w) ctr = initWords start ctr := Vector.set_set w _

/-- The block depends on the start state through the original state alone. -/
theorem block_eq_of_initWords_eq {start start' : Words} {ctr ctr' : Word}
    (h : initWords start ctr = initWords start' ctr') : block start ctr = block start' ctr' := by
  simp only [block, blockWords, h]

/-- Settles O33: the feed-forward adds the original state, which is the counter at word 12 and the start state elsewhere. -/
theorem feedForwardAddsTheCounter : Obligations.FeedForwardAddsTheCounter := by
  intro start ctr w
  refine ⟨?_, fun i hi => ?_, block_eq_of_initWords_eq (initWords_set_placeholder start ctr w)⟩
  · rw [getElem_blockWords]
    simp [initWords]
  · have hne : 12 ≠ i.val := fun h => hi (Fin.ext h.symm)
    rw [Fin.getElem_fin, getElem_blockWords]
    simp [initWords, hne]

/-- Settles O34: byte `4i + j` is in word `(4i + j) / 4 = i`, at place `(4i + j) % 4 = j`. -/
theorem blockIsLittleEndian : Obligations.BlockIsLittleEndian := by
  intro start ctr i j
  have hi : (4 * i.val + j.val) / 4 = i.val := by omega
  have hj : (4 * i.val + j.val) % 4 = j.val := by omega
  simp [block, wordByte, hi, hj]

end Sys2Proof.Machine
end

section
/-! SUPPORT. CONSUME and XORSTREAM said by what is available, and how CONSUME counts blocks
(41_keystream_and_xor.md R141 to R151). -/

namespace Sys2Proof.Machine

open Sys2Proof

/-! ### What is available -/

/-- Settles O35: whatever is available is handed out, and what is handed out was available. -/
theorem consumeFailsExactlyBeyondAvail : Obligations.ConsumeFailsExactlyBeyondAvail := by
  intro n k
  rw [consume_eq_byteLoop]
  constructor
  · intro hnone
    by_contra hle
    obtain ⟨o, k', hsome⟩ := byteLoop_of_avail n (Nat.not_lt.mp hle)
    rw [hnone] at hsome
    cases hsome
  · intro hlt
    cases hb : byteLoop n k with
    | none => rfl
    | some p =>
      obtain ⟨-, hav, -, -⟩ := byteLoop_spec n k p.2 p.1 hb
      omega

/-! ### Cutting the data in two (R149) -/

/-- `XORSTREAM` of a concatenation, for what the two parts give one after the other. -/
theorem xorStream_append {a b o1 o2 : Bytes} {k k1 k2 : Keystream} (h1 : xorStream a k = some (o1, k1))
    (h2 : xorStream b k1 = some (o2, k2)) : xorStream (a ++ b) k = some (o1 ++ o2, k2) := by
  rw [xorStream_eq_byteLoop] at h1 h2 ⊢
  split at h1
  · cases h1
  next s1 hb1 =>
    cases h1
    split at h2
    · cases h2
    next s2 hb2 =>
      cases h2
      obtain ⟨hlen, -, -, -⟩ := byteLoop_spec _ _ _ _ hb1
      simp only [List.length_append, byteLoop_add, hb1, hb2, List.zipWith_append hlen.symm]

/-- Settles O38: the first part takes its bytes off AVAIL and leaves enough for the second. -/
theorem splittingLaw : Obligations.SplittingLaw := by
  intro a b k h
  obtain ⟨o1, k1, h1⟩ := xorStream_of_avail (d := a) (k := k) (by omega)
  obtain ⟨-, -, -, hav⟩ := xorStream_spec _ _ _ _ h1
  obtain ⟨o2, k2, h2⟩ := xorStream_of_avail (d := b) (k := k1) (by omega)
  exact ⟨o1, k1, o2, k2, h1, h2, xorStream_append h1 h2⟩

/-! ### Whole blocks (R151) -/

/-- From an exhausted buffer, the first 64 bytes are the block that the refill generates. -/
theorem byteLoop_block {k k1 k' : Keystream} {o : Bytes} {n : Nat} (ho : k.offset.val = 64)
    (hr : refill k = some k1) (hb : byteLoop n (advance k1 64) = some (o, k')) :
    byteLoop (64 + n) k = some ((block k.start k.ctr).toList ++ o, k') := by
  obtain ⟨_, hr1, -, -, -, -, -, hbuf, ho1⟩ | ⟨hr1, -⟩ := refill_eq k <;> rw [hr] at hr1 <;> cases hr1
  have hready : ready k = ready k1 := by
    rw [ready_of_lt k1 (by omega), ready, if_pos ho, hr]
  have hsame : byteLoop (64 + n) k = byteLoop (64 + n) k1 := by
    rw [Nat.add_comm]
    simp only [byteLoop, takeByte_eq_of_ready_eq hready]
  rw [hsame, byteLoop_in_buffer 64 n k1 (by omega), hb, ho1, hbuf, memRead_all _ 64 (by simp)]

/-- The first `n` blocks of a start state from counter `ctr` on, one after the other. -/
def blocksFrom (start : Words) (ctr : Word) (n : Nat) : Bytes :=
  ((List.range n).map fun j => (block start (ctr + BitVec.ofNat 32 j)).toList).flatten

theorem blocksFrom_succ (start : Words) (ctr : Word) (n : Nat) :
    blocksFrom start ctr (n + 1) = (block start ctr).toList ++ blocksFrom start (ctr + 1) n := by
  have hctr (j : Nat) : ctr + BitVec.ofNat 32 (j + 1) = ctr + 1 + BitVec.ofNat 32 j := by
    rw [Nat.add_comm, BitVec.ofNat_add, ← add_assoc]; rfl
  unfold blocksFrom
  rw [List.range_succ_eq_map, List.map_cons, List.map_map, List.flatten_cons, BitVec.ofNat_eq_ofNat, BitVec.add_zero]
  congr 3
  exact funext fun j => congrArg (fun c => (block start c).toList) (hctr j)

/-- Settles O37: by induction on the number of blocks, one refill each. -/
theorem blockAccounting : Obligations.BlockAccounting := by
  intro n k ho hn
  rw [consume_eq_byteLoop]
  change ∃ k', byteLoop (64 * n) k = some (blocksFrom k.start k.ctr n, k') ∧ _
  induction n generalizing k with
  | zero => exact ⟨k, rfl, rfl, ho, by simp, rfl, rfl⟩
  | succ n ih =>
    obtain ⟨k1, hr, hlt, hstart, hctr0, hctr, hblocks, -, ho1⟩ | ⟨-, hfull⟩ := refill_eq k
    · have ho2 : (advance k1 64).offset.val = 64 := by rw [advance_offset _ _ (by omega), ho1]
      have hav : 64 * n ≤ avail (advance k1 64) := by
        simp only [avail, advance_blocks, ho2] at hn ⊢
        omega
      obtain ⟨k', hb, hblocks', ho', hctr', hctr0', hstart'⟩ := ih (advance k1 64) ho2 hav
      simp only [advance_start, advance_ctr0, advance_ctr, advance_blocks, hstart, hctr0, hctr, hblocks]
        at hb hblocks' hctr' hctr0' hstart'
      refine ⟨k', ?_, by omega, ho', ?_, hctr0', hstart'⟩
      · rw [Nat.mul_succ, Nat.add_comm, byteLoop_block ho hr hb, blocksFrom_succ]
      · rw [hctr', Nat.add_comm n, BitVec.ofNat_add, ← add_assoc]; rfl
    · simp only [avail, ho, hfull] at hn
      omega

/-! ### Counter 0 in mode AEAD (R147) -/

/-- Settles O41: the counter of a refill is BLOCKS itself, at least 1 for the subkey's block and below 2^32. -/
theorem aeadKeystreamSkipsCounterZero : Obligations.AeadKeystreamSkipsCounterZero := by
  intro s k _ h hm hr
  obtain ⟨hctr0, hfirst⟩ := h.aeadBase hm
  obtain ⟨-, -, hlt, -⟩ | ⟨hnone, -⟩ := refill_eq s.ks
  · have hctr : s.ks.ctr.toNat = s.ks.blocks.val := by
      rw [h.counterLaw, hctr0, zero_add, BitVec.toNat_ofNat, Nat.mod_eq_of_lt hlt]
    rw [← hctr] at hfirst
    intro hzero
    simp [hzero] at hfirst
  · rw [hnone] at hr
    cases hr

end Sys2Proof.Machine
end

section
/-! SUPPORT. Involution (41_keystream_and_xor.md R150): XORSTREAM undoes itself, and sessions of the same pair, mode and
counter start with keystreams that give the same bytes. -/

namespace Sys2Proof.Machine

open Sys2Proof

/-! ### XORSTREAM undoes itself -/

theorem zipWith_xor_zipWith_xor {d o : Bytes} (h : d.length ≤ o.length) :
    List.zipWith (fun a b => a ^^^ b) (List.zipWith (fun a b => a ^^^ b) d o) o = d := by
  apply List.ext_getElem
  · simp [h]
  · intro i _ _
    simp

theorem xorStream_involutive {d o : Bytes} {k k' : Keystream} (h : xorStream d k = some (o, k')) :
    xorStream o k = some (d, k') := by
  obtain ⟨hlen, -, -, -⟩ := xorStream_spec _ _ _ _ h
  rw [xorStream_eq_byteLoop] at h ⊢
  split at h
  · cases h
  next ks hb =>
    cases h
    obtain ⟨hks, -, -, -⟩ := byteLoop_spec _ _ _ _ hb
    simp only [hlen, hb, zipWith_xor_zipWith_xor hks.ge]

/-! ### The keystream that INIT leaves (42_init_and_query.md R163, R164) -/

/-- The Keystream Manager's registers after an INIT that is accepted, with the unspecified KSBUF holding `buf`. -/
def initialKeystream (mode : Mode) (ictr : Word) (start : Words) (buf : Vector Byte 64) : Keystream :=
  match mode with
  | .stream => { start := start, ctr0 := ictr, ctr := ictr, blocks := 0, ksbuf := buf, offset := 64 }
  | .aead => { start := start, ctr0 := 0, ctr := 1, blocks := 1, ksbuf := buf, offset := 64 }

theorem exec_init_session (dir : Dir) (mode : Mode) (key nonce : Bytes) (ictr : Word) {s : State}
    (h : initAccepted key nonce s) : ∃ t, exec (.init dir mode key nonce ictr) s = .next t ∧
      t.responses = ⟨.ok, 0, []⟩ :: s.responses ∧ t.phase = .initialized ∧ t.mode = mode ∧ t.dir = dir ∧
      t.ks = initialKeystream mode ictr (startOf s.cfg.sigma key nonce) (freeKsbuf s.draws) := by
  cases mode with
  | stream => exact ⟨_, execInit_stream dir key nonce ictr s h, rfl, rfl, rfl, rfl, rfl⟩
  | aead => exact ⟨_, execInit_aead dir key nonce ictr s h, rfl, rfl, rfl, rfl, rfl⟩

/-- The whole budget of the session is available (20_memory.md R69, 41_keystream_and_xor.md R141). -/
theorem avail_initialKeystream (mode : Mode) (ictr : Word) (start : Words) (buf : Vector Byte 64) :
    avail (initialKeystream mode ictr start buf) = 64 * (Config.maxBlocks - firstBlocks mode) := by
  cases mode <;> simp [avail, initialKeystream, firstBlocks]

/-- What KSBUF holds after INIT is of no account. -/
theorem ready_initialKeystream (mode : Mode) (ictr : Word) (start : Words) (buf buf' : Vector Byte 64) :
    ready (initialKeystream mode ictr start buf) = ready (initialKeystream mode ictr start buf') := by
  cases mode <;> exact ready_eq_of_exhausted rfl rfl

/-! ### An ENC session of one UPDATE -/

/-- In both modes an UPDATE in direction ENC puts out what XORSTREAM gives. -/
theorem exec_update_enc {data out : Bytes} {cap : U64} {s : State} {k : Keystream} (hp : s.phase ≠ .uninit)
    (hd : s.dir = .enc) (hc : data.length ≤ cap.toNat) (hx : xorStream data s.ks = some (out, k)) :
    ∃ t, exec (.update data cap) s = .next t ∧ t.responses = ⟨.ok, len64 data, out⟩ :: s.responses := by
  obtain ⟨-, -, -, hav⟩ := xorStream_spec _ _ _ _ hx
  have ha : data.length ≤ avail s.ks := by omega
  have hpro (hs : getSize s data.length false = data.length) := prologue_passes data cap false s hp (hs.symm ▸ hc)
  cases hm : s.mode with
  | stream =>
    have he := (engineOf_stream s.mode s.dir).mpr hm
    refine ⟨_, execUpdate_stream data cap s (hpro (getSize_stream s _ _ he)) he, ?_⟩
    rw [streamUpdate_completes data out s k ha hx]; rfl
  | aead =>
    have he := (engineOf_aeadEnc s.mode s.dir).mpr ⟨hm, hd⟩
    refine ⟨_, execUpdate_aeadEnc data cap s (hpro (getSize_aeadEnc s _ _ he)) he, ?_⟩
    rw [aeadEncUpdate_completes data out s k ha hx]
    simp

theorem execAll_init_update_enc {mode : Mode} {key nonce data out : Bytes} {ictr : Word} {cap : U64} {s : State}
    {k : Keystream} (h : initAccepted key nonce s) (hc : data.length ≤ cap.toNat)
    (hx : xorStream data (initialKeystream mode ictr (startOf s.cfg.sigma key nonce) (freeKsbuf s.draws)) =
      some (out, k)) :
    ∃ t, execAll [.init .enc mode key nonce ictr, .update data cap] s = .next t ∧
      lastResponses 2 t = [⟨.ok, 0, []⟩, ⟨.ok, len64 data, out⟩] := by
  obtain ⟨s1, he1, hr1, hp1, -, hd1, hk1⟩ := exec_init_session .enc mode key nonce ictr h
  obtain ⟨t, he, hr⟩ := exec_update_enc (by rw [hp1]; decide) hd1 hc (hk1 ▸ hx)
  refine ⟨t, by simp only [execAll, he1, he], ?_⟩
  rw [hr1] at hr
  exact lastResponses_of_append (rs := [_, _]) hr

/-- Settles O39: the two sessions' keystreams agree once ready, so both XORSTREAMs use the same bytes. -/
theorem secondSessionReturnsTheInput : Obligations.SecondSessionReturnsTheInput := by
  intro mode key nonce data ictr cap s t hsigma hs ht hlen hcap
  have hready := ready_initialKeystream mode ictr (startOf s.cfg.sigma key nonce) (freeKsbuf s.draws) (freeKsbuf t.draws)
  obtain ⟨out, k, l, hk, hl, -⟩ := xorStream_of_ready_eq hready (d := data) (by rwa [avail_initialKeystream])
  obtain ⟨hout, -, -, -⟩ := xorStream_spec _ _ _ _ hk
  obtain ⟨s', hes, hrs⟩ := execAll_init_update_enc hs hcap hk
  obtain ⟨t', het, hrt⟩ := execAll_init_update_enc ht (hout.symm ▸ hcap) (hsigma ▸ xorStream_involutive hl)
  have hlen64 : len64 out = len64 data := by rw [len64, hout, len64]
  exact ⟨s', t', out, hes, hrs, het, hlen64 ▸ hrt⟩

end Sys2Proof.Machine
end

section
/-! SUPPORT. INIT (42_init_and_query.md R160 to R168): the whole next state, the session it determines, its two tests, and
the reuse guard over runs of three INITs. -/

namespace Sys2Proof.Machine

open Sys2Proof

/-! ### What a successful INIT loads (R163, R164), and that nothing else is left (R168) -/

/-- Settles O23. -/
theorem initStreamLoadsTheSession : Obligations.InitStreamLoadsTheSession := by
  intro dir key nonce ictr s h
  have ⟨hkey, hnonce, _⟩ := h
  exact ⟨_, execInit_stream dir key nonce ictr s h, toRegister_toList 32 key hkey, toRegister_toList 12 nonce hnonce,
    rfl, rfl, rfl, rfl, rfl, rfl⟩

/-- The subkey is the first half of the block with counter 0 (R165). -/
theorem subkeyOf_toList (start : Words) : (subkeyOf start).toList = (block start 0).toList.take 32 :=
  toRegister_toList 32 _ (by simp)

/-- Settles O24: the state that `execInit_aead` names doesn't mention `ictr`. -/
theorem initAeadLoadsTheSession : Obligations.InitAeadLoadsTheSession := by
  intro dir key nonce ictr s h
  have ⟨hkey, hnonce, _⟩ := h
  exact ⟨_, execInit_aead dir key nonce ictr s h, execInit_aead dir key nonce 0 s h, toRegister_toList 32 key hkey,
    toRegister_toList 12 nonce hnonce, rfl, rfl, rfl, rfl, rfl, subkeyOf_toList _, rfl, rfl⟩

/-- An INIT that is accepted in two states of one configuration leaves them alike, whatever their records were. -/
theorem exec_init_alike {s t : State} (h : s.cfg = t.cfg) (dir : Dir) (mode : Mode) {key nonce : Bytes} (ictr : Word)
    (hs : initAccepted key nonce s) (ht : initAccepted key nonce t) :
    ∃ s' t', exec (.init dir mode key nonce ictr) s = .next s' ∧ exec (.init dir mode key nonce ictr) t = .next t' ∧
      AnswersAlike s t s' t' := by
  cases mode with
  | stream => exact ⟨_, _, execInit_stream dir key nonce ictr s hs, execInit_stream dir key nonce ictr t ht,
      _, rfl, rfl, (alike_initStream h dir dir key nonce ictr).respond ..⟩
  | aead => exact ⟨_, _, execInit_aead dir key nonce ictr s hs, execInit_aead dir key nonce ictr t ht,
      _, rfl, rfl, (alike_initAead h dir key nonce).respond ..⟩

/-- Settles O22: after the INIT the two states are alike, and stay so. -/
theorem initDeterminesTheSession : Obligations.InitDeterminesTheSession := by
  intro s t dir mode key nonce ictr hcfg hs ht is
  obtain ⟨s1, t1, hes, het, r, hrs, hrt, h1⟩ := exec_init_alike hcfg dir mode ictr hs ht
  obtain ⟨s', t', rs, hes', het', hlen, hrs', hrt'⟩ := execAll_alike h1 is
  have hcount : (rs ++ [r]).length = is.length + 1 := by rw [List.length_append, hlen]; rfl
  rw [hrs, List.append_cons] at hrs'
  rw [hrt, List.append_cons] at hrt'
  refine ⟨s', t', by simp only [execAll, hes, hes'], by simp only [execAll, het, het'], ?_⟩
  rw [← hcount, lastResponses_of_append hrs', lastResponses_of_append hrt']

/-! ### The two tests of INIT (R161, R162) -/

/-- INIT reports the status of its row in the table of 60_exceptions.md R245. -/
theorem exec_init_status (dir : Dir) (mode : Mode) (key nonce : Bytes) (ictr : Word) (s : State) :
    ∃ t r, exec (.init dir mode key nonce ictr) s = .next t ∧ t.responses = r :: s.responses ∧
      r.status = statusOf (.init dir mode key nonce ictr) s := by
  by_cases hl : key.length ≠ 32 ∨ nonce.length ≠ 12
  · exact ⟨_, _, execInit_invalidKey dir mode key nonce ictr s hl, rfl, (if_pos hl).symm⟩
  have hl' : key.length = 32 ∧ nonce.length = 12 := by simpa only [not_or, not_not, ne_eq] using hl
  by_cases hr : s.knvalid = true ∧ key = s.key.toList ∧ nonce = s.nonce.toList
  · exact ⟨_, _, execInit_nonceReuse dir mode key nonce ictr s hl' hr, rfl,
      ((if_neg hl).trans (if_pos hr)).symm⟩
  · obtain ⟨t, he, hrs, -⟩ := exec_init_session dir mode key nonce ictr ⟨hl'.1, hl'.2, hr⟩
    exact ⟨t, _, he, hrs, ((if_neg hl).trans (if_neg hr)).symm⟩

/-- Settles O25: the test of the lengths is the first of the row. -/
theorem initChecksLengths : Obligations.InitChecksLengths := by
  intro dir mode key nonce ictr s
  obtain ⟨t, r, he, hr, hst⟩ := exec_init_status dir mode key nonce ictr s
  refine ⟨t, r, he, hr, ?_⟩
  rw [hst, statusOf]
  split
  next hl => simp only [hl]
  next hl => split <;> simp [hl]

/-! ### The reuse guard (R162) -/

/-- The pair that the reuse guard has on record (10_state.md R30, R32, R33). -/
def Recorded (key nonce : Bytes) (s : State) : Prop :=
  s.knvalid = true ∧ key = s.key.toList ∧ nonce = s.nonce.toList

/-- A successful INIT responds OK and records its pair (R167). -/
theorem exec_init_records (dir : Dir) (mode : Mode) {key nonce : Bytes} (ictr : Word) {s : State}
    (h : initAccepted key nonce s) : ∃ t, exec (.init dir mode key nonce ictr) s = .next t ∧
      t.responses = ⟨.ok, 0, []⟩ :: s.responses ∧ Recorded key nonce t := by
  have ⟨hkey, hnonce, _⟩ := h
  have hk := (toRegister_toList 32 key hkey).symm
  have hn := (toRegister_toList 12 nonce hnonce).symm
  cases mode with
  | stream => exact ⟨_, execInit_stream dir key nonce ictr s h, rfl, rfl, hk, hn⟩
  | aead => exact ⟨_, execInit_aead dir key nonce ictr s h, rfl, rfl, hk, hn⟩

/-- A pair other than the recorded one passes the guard. -/
theorem Recorded.accepts {k n k' n' : Bytes} {s : State} (h : Recorded k n s) (hk : k'.length = 32) (hn : n'.length = 12)
    (hne : (k, n) ≠ (k', n')) : initAccepted k' n' s := by
  obtain ⟨-, hkey, hnonce⟩ := h
  refine ⟨hk, hn, fun ⟨_, hkey', hnonce'⟩ => hne ?_⟩
  rw [hkey, hnonce, hkey', hnonce']

/-- Three commands that each hand back one response. -/
theorem execAll_three {i1 i2 i3 : Instr} {s s1 s2 s3 : State} {r1 r2 r3 : Response} (h1 : exec i1 s = .next s1)
    (hr1 : s1.responses = r1 :: s.responses) (h2 : exec i2 s1 = .next s2) (hr2 : s2.responses = r2 :: s1.responses)
    (h3 : exec i3 s2 = .next s3) (hr3 : s3.responses = r3 :: s2.responses) :
    execAll [i1, i2, i3] s = .next s3 ∧ lastResponses 3 s3 = [r1, r2, r3] := by
  rw [hr2, hr1] at hr3
  exact ⟨by simp only [execAll, h1, h2, h3], lastResponses_of_append (rs := [r3, r2, r1]) hr3⟩

/-- Settles O26: each successful INIT records its pair, and one that fails leaves the record standing. -/
theorem reuseGuard : Obligations.ReuseGuard := by
  refine ⟨fun dir mode key nonce ictr s hk hn => ?_,
    fun d1 d2 d3 m1 m2 m3 k n k' n' c1 c2 c3 s h hk' hn' hne => ?_,
    fun d1 d2 d3 m1 m2 m3 k n k' n' c1 c2 c3 s h hbad => ?_⟩
  · obtain ⟨t, r, he, hr, hst⟩ := exec_init_status dir mode key nonce ictr s
    refine ⟨t, r, he, hr, ?_⟩
    rw [hst, statusOf, if_neg (by simp [hk, hn])]
    split
    next hrec => simp only [hrec, and_self]
    next hrec => simp [hrec]
  · obtain ⟨s1, he1, hr1, hrec1⟩ := exec_init_records d1 m1 c1 h
    obtain ⟨s2, he2, hr2, hrec2⟩ := exec_init_records d2 m2 c2 (hrec1.accepts hk' hn' hne)
    obtain ⟨hk, hn, -⟩ := h
    obtain ⟨s3, he3, hr3, -⟩ := exec_init_records d3 m3 c3 (hrec2.accepts hk hn hne.symm)
    obtain ⟨he, hlast⟩ := execAll_three he1 hr1 he2 hr2 he3 hr3
    exact ⟨s3, he, by rw [hlast]; rfl⟩
  · obtain ⟨s1, he1, hr1, hrec1⟩ := exec_init_records d1 m1 c1 h
    have he2 : exec (.init d2 m2 k' n' c2) s1 = _ := execInit_invalidKey d2 m2 k' n' c2 s1 hbad
    have hrec2 : Recorded k n (raise .invalidKey s1) := hrec1
    have ⟨hk, hn, _⟩ := h
    have he3 : exec (.init d3 m3 k n c3) (raise .invalidKey s1) = _ :=
      execInit_nonceReuse d3 m3 k n c3 _ ⟨hk, hn⟩ hrec2
    obtain ⟨he, hlast⟩ := execAll_three he1 hr1 he2 rfl he3 rfl
    exact ⟨_, he, by rw [hlast]; rfl⟩

end Sys2Proof.Machine
end

section
/-! SUPPORT. GET_OUTPUT_SIZE (42_init_and_query.md R170 to R172): its answer, and when the answer passes 64 bits. -/

namespace Sys2Proof.Machine

open Sys2Proof

/-- Settles O27: an answer that is the value of a 64-bit quantity doesn't overflow and isn't cut. -/
theorem outputSizeQuery : Obligations.OutputSizeQuery := by
  intro n isfinal s v hp hv
  have hsize : getSize s n.toNat isfinal = v.toNat := hv.symm
  have hfits : ¬Config.maxU64 < v.toNat := by
    have := v.isLt
    simp only [Config.maxU64]
    omega
  have he := execGetOutputSize_session n isfinal s hp
  rw [hsize, if_neg hfits, BitVec.ofNat_toNat, BitVec.setWidth_eq] at he
  exact he

/-- Only the tag's 16 bytes of a final call bring an answer past 64 bits, or more pending bytes than fit (R172). -/
theorem maxU64_lt_getSize_iff (s : State) (n : U64) (isfinal : Bool) :
    Config.maxU64 < getSize s n.toNat isfinal ↔ isfinal = true ∧
      ((engineOf s.mode s.dir = .aeadEnc ∧ 2 ^ 64 - 16 ≤ n.toNat) ∨
       (engineOf s.mode s.dir = .aeadDec ∧ 2 ^ 64 + 16 ≤ s.pend.length + n.toNat)) := by
  have hn := n.isLt
  cases he : engineOf s.mode s.dir with
  | stream =>
    rw [getSize_stream s _ _ he]
    simp [Config.maxU64]
    omega
  | aeadEnc =>
    rw [getSize_aeadEnc s _ _ he]
    cases isfinal with
    | false => simp [Config.maxU64]; omega
    | true => simp [Config.maxU64]; omega
  | aeadDec =>
    rw [getSize_aeadDec s _ _ he]
    cases isfinal with
    | false => simp [Config.maxU64]
    | true => simp [Config.maxU64]; omega

/-- Settles O28: the first test is the phase, the second the size of the answer. -/
theorem outputSizeErrors : Obligations.OutputSizeErrors := by
  intro n isfinal s
  rw [← maxU64_lt_getSize_iff]
  by_cases hp : s.phase = .uninit
  · exact ⟨_, _, execGetOutputSize_illegal n isfinal s hp, rfl, by simp [hp], by simp [hp]⟩
  have he := execGetOutputSize_session n isfinal s hp
  by_cases hv : Config.maxU64 < getSize s n.toNat isfinal
  · rw [if_pos hv] at he
    exact ⟨_, _, he, rfl, by simp [hp], by simp [hp, hv]⟩
  · rw [if_neg hv] at he
    exact ⟨_, _, he, rfl, by simp [hp], by simp [hv]⟩

end Sys2Proof.Machine
end

section
/-! SUPPORT. The Stream Engine (43_stream_engine.md R183 to R186): what XORSTREAM puts out at a session's position, the
next states of STREAM_UPDATE and STREAM_FINALIZE, and that the direction of a stream session plays no part. -/

namespace Sys2Proof.Machine

open Sys2Proof

/-! ### XORSTREAM at the session's position (20_memory.md R69, 41_keystream_and_xor.md R148) -/

/-- Data exclusive-or-ed with the keystream bytes listed from position `p` on. -/
theorem zipWith_xor_keystream (start : Words) (first : Word) (p : Nat) (data : Bytes) :
    List.zipWith (fun a b => a ^^^ b) data ((List.range' p data.length).map (keystreamByte start first)) =
      xorAt start first p data := by
  apply List.ext_getElem
  · simp [xorAt]
  · intro i _ _
    simp [xorAt]

/-- What XORSTREAM puts out in a session of either mode, and what it leaves. -/
theorem SessionInv.xorStream_at {s : State} (h : SessionInv s) {data : Bytes} (ha : data.length ≤ avail s.ks) :
    ∃ k, xorStream data s.ks = some (xorAt s.ks.start (firstCounter s) (keystreamPos s) data, k) ∧
      k.start = s.ks.start ∧ k.ctr0 = s.ks.ctr0 ∧
      keystreamPos { s with ks := k } = keystreamPos s + data.length := by
  obtain ⟨k, hc, hpos, -⟩ := h.consume_at ha
  have hx : xorStream data s.ks = some (xorAt s.ks.start (firstCounter s) (keystreamPos s) data, k) := by
    simp only [xorStream, hc, zipWith_xor_keystream]
  obtain ⟨-, hstart, hctr0, -⟩ := xorStream_spec _ _ _ _ hx
  exact ⟨k, hx, hstart, hctr0, hpos⟩

/-! ### UPDATE and FINALIZE of a stream session, past the prologue (R180 to R184) -/

theorem firstCounter_stream {s : State} (hm : s.mode = .stream) : firstCounter s = s.ks.ctr0 := by
  simp only [firstCounter, hm]

/-- In a stream session the output is as long as the data, so a capacity of that length passes the prologue. -/
theorem prologue_stream {data : Bytes} {cap : U64} {s : State} (hp : s.phase ≠ .uninit) (hm : s.mode = .stream)
    (hc : data.length ≤ cap.toNat) (isfinal : Bool) : prologue data cap isfinal s = none :=
  prologue_passes data cap isfinal s hp (by rwa [getSize_stream s _ _ ((engineOf_stream _ _).mpr hm)])

/-- Settles O42: past the prologue, XORSTREAM at the session's position gives the output and the Keystream Manager's
registers. (The name `streamUpdate` is the model's.) -/
theorem exec_streamUpdate : Obligations.StreamUpdate := by
  intro data cap s hp h hm hc
  have he : exec (.update data cap) s = .next (streamUpdate data s) :=
    execUpdate_stream data cap s (prologue_stream hp hm hc false) ((engineOf_stream _ _).mpr hm)
  refine ⟨fun ha => ?_, fun ha => ⟨_, streamUpdate_exhausted data s ha ▸ he, rfl, rfl⟩⟩
  obtain ⟨k, hx, hstart, hctr0, hpos⟩ := firstCounter_stream hm ▸ h.xorStream_at ha
  exact ⟨k, hx, hstart, hctr0, hpos, he.trans (congrArg Host.Outcome.next (streamUpdate_completes data _ s k ha hx))⟩

/-- Settles O43: the same output as UPDATE, and the session ends. (The name `streamFinalize` is the model's.) -/
theorem exec_streamFinalize : Obligations.StreamFinalize := by
  intro data cap s hp h hm hc
  have he : exec (.finalize data cap) s = .next (streamFinalize data s) :=
    execFinalize_stream data cap s (prologue_stream hp hm hc true) ((engineOf_stream _ _).mpr hm)
  refine ⟨fun ha => ?_, fun ha => ⟨_, streamFinalize_exhausted data s ha ▸ he, rfl, rfl⟩⟩
  obtain ⟨k, hx, hstart, hctr0, hpos⟩ := firstCounter_stream hm ▸ h.xorStream_at ha
  exact ⟨k, hx, hstart, hctr0, hpos, he.trans (congrArg Host.Outcome.next (streamFinalize_completes data _ s k ha hx))⟩

/-! ### The direction plays no part (R186) -/

/-- Two first commands, not necessarily the same, that answer alike: the same commands after them answer alike too. -/
theorem execAll_cons_alike {i j : Instr} {s t s1 t1 : State} (hs : exec i s = .next s1) (ht : exec j t = .next t1)
    (h : AnswersAlike s t s1 t1) (is : List Instr) :
    ∃ s' t', execAll (i :: is) s = .next s' ∧ execAll (j :: is) t = .next t' ∧
      lastResponses (is.length + 1) s' = lastResponses (is.length + 1) t' := by
  obtain ⟨r, hrs, hrt, h1⟩ := h
  obtain ⟨s', t', rs, hes, het, hlen, hrs', hrt'⟩ := execAll_alike h1 is
  have hcount : (rs ++ [r]).length = is.length + 1 := by simp [hlen]
  rw [hrs, List.append_cons] at hrs'
  rw [hrt, List.append_cons] at hrt'
  refine ⟨s', t', by simp only [execAll, hs, hes], by simp only [execAll, ht, het], ?_⟩
  rw [← hcount, lastResponses_of_append hrs', lastResponses_of_append hrt']

/-- Settles O44: the two INITs leave sessions that differ in DIR, which engine STREAM does not read (R31). -/
theorem streamDirectionIsIrrelevant : Obligations.StreamDirectionIsIrrelevant := by
  intro key nonce ictr s t hcfg hs ht is
  have hes : exec (.init .enc .stream key nonce ictr) s = .next _ := execInit_stream .enc key nonce ictr s hs
  have het : exec (.init .dec .stream key nonce ictr) t = .next _ := execInit_stream .dec key nonce ictr t ht
  have halike := (alike_initStream hcfg .enc .dec key nonce ictr).respond .ok 0 []
  exact execAll_cons_alike hes het ⟨⟨.ok, 0, []⟩, rfl, rfl, halike⟩ is

end Sys2Proof.Machine
end

section
/-! SUPPORT. UPDATE_AAD and the AEAD Encrypt Engine, one command at a time (44_aead_encrypt.md R190 to R196): what a
command past its tests leaves as the whole next state, and the errors past 64 bits of AADLEN and beyond `AVAIL`. -/

namespace Sys2Proof.Machine

open Sys2Proof

/-! ### UPDATE_AAD (R190, R191) -/

/-- A 64-bit counter that has room for the length of `d` holds the sum. -/
theorem toNat_add_len64 {v : U64} {d : Bytes} (h : v.toNat + d.length ≤ Config.maxU64) :
    (v + len64 d).toNat = v.toNat + d.length := by
  simp only [Config.maxU64] at h
  rw [BitVec.toNat_add, len64, BitVec.toNat_ofNat]
  omega

/-- Settles O45: a sum that passes the test on natural numbers fits the counter. -/
theorem updateAadFeedsTheAuthenticator : Obligations.UpdateAadFeedsTheAuthenticator := by
  intro data s hm hp hl
  exact ⟨_, toNat_add_len64 hl, (execUpdateAad_legal data s hm hp).trans (if_neg (Nat.not_lt.mpr hl))⟩

/-- Settles O46: the one test decides between the two outcomes. -/
theorem aadLengthNeverWraps : Obligations.AadLengthNeverWraps := by
  intro data s hm hp
  by_cases hl : s.aadlen.toNat + data.length ≤ Config.maxU64
  · obtain ⟨n, hn, he⟩ := updateAadFeedsTheAuthenticator data s hm hp hl
    exact ⟨_, _, he, rfl, fun hgt => absurd hl (Nat.not_le.mpr hgt), fun _ => ⟨rfl, hn⟩⟩
  · have he := (execUpdateAad_legal data s hm hp).trans (if_pos (Nat.not_le.mp hl))
    exact ⟨_, _, he, rfl, fun _ => ⟨rfl, rfl⟩, fun hle => absurd hle hl⟩

/-! ### The position of an encrypting session (R198) -/

section
variable {s : State} (h : SessionInv s) (hm : s.mode = .aead) (hd : s.dir = .enc)
include h hm hd

theorem SessionInv.datalen_add_avail : s.datalen.toNat + avail s.ks = 64 * (Config.maxBlocks - 1) :=
  (consumed_iff_avail _ _ (h.aeadBase hm).2).mp (h.encDatalen ((engineOf_aeadEnc _ _).mpr ⟨hm, hd⟩))

theorem SessionInv.keystreamPos_eq_datalen : keystreamPos s = s.datalen.toNat := by
  have hpos := keystreamPos_add_avail h.keystreamLaw
  have hlen := h.datalen_add_avail hm hd
  rw [hm, firstBlocks] at hpos
  omega

variable {data : Bytes} (ha : data.length ≤ avail s.ks)
include ha

/-- XORSTREAM starts at position DATALEN of the keystream that begins with counter 1. -/
theorem SessionInv.xorStream_at_datalen :
    ∃ k, xorStream data s.ks = some (xorAt s.ks.start 1 s.datalen.toNat data, k) ∧ k.start = s.ks.start ∧
      k.ctr0 = s.ks.ctr0 := by
  obtain ⟨k, hx, hstart, hctr0, -⟩ := h.xorStream_at ha
  have hfirst : firstCounter s = 1 := by rw [firstCounter, hm]
  rw [hfirst, h.keystreamPos_eq_datalen hm hd] at hx
  exact ⟨k, hx, hstart, hctr0⟩

/-- Data for which there is keystream doesn't take DATALEN past 64 bits. -/
theorem SessionInv.datalen_add_len64 : (s.datalen + len64 data).toNat = s.datalen.toNat + data.length := by
  have hlen := h.datalen_add_avail hm hd
  simp only [Config.maxBlocks] at hlen
  exact toNat_add_len64 (by simp only [Config.maxU64]; omega)

end

/-! ### AEADENC_UPDATE and AEADENC_FINALIZE (R192 to R196) -/

/-- `CLOSE_AAD` sets ACLOSED and feeds the padding, which is empty when the AAD is closed already (R192). -/
theorem closeAad_eq (s : State) :
    closeAad s = { s with aclosed := true, auth := ⟨s.auth.key, s.auth.msg ++ closingPad s⟩ } := by
  rw [← closeAad_auth]
  unfold closeAad
  split
  next hc => rw [← hc]
  next => rfl

/-- In engine AEAD_ENC a FINALIZE needs room for 16 bytes more than an UPDATE. -/
theorem prologue_aeadEnc {data : Bytes} {cap : U64} {s : State} {isfinal : Bool} (hp : s.phase ≠ .uninit)
    (he : engineOf s.mode s.dir = .aeadEnc) (hc : (if isfinal then data.length + 16 else data.length) ≤ cap.toNat) :
    prologue data cap isfinal s = none :=
  prologue_passes data cap isfinal s hp (by rwa [getSize_aeadEnc s _ _ he])

/-- Settles O47: XORSTREAM at position DATALEN gives the ciphertext, `closeAad_eq` what else is fed. (The name
`aeadEncUpdate` is the model's.) -/
theorem exec_aeadEncUpdate : Obligations.AeadEncUpdate := by
  intro data cap s hp h hm hd hc
  have heng := (engineOf_aeadEnc _ _).mpr ⟨hm, hd⟩
  have he : exec (.update data cap) s = .next (aeadEncUpdate data s) :=
    execUpdate_aeadEnc data cap s (prologue_aeadEnc hp heng hc) heng
  refine ⟨fun ha => ?_, fun ha => ⟨_, aeadEncUpdate_exhausted data s ha ▸ he, rfl, rfl⟩⟩
  obtain ⟨k, hx, hstart, hctr0⟩ := h.xorStream_at_datalen hm hd ha
  refine ⟨k, s.datalen + len64 data, hx, hstart, hctr0, h.datalen_add_len64 hm hd ha, ?_⟩
  rw [he, aeadEncUpdate_completes data _ s k ha hx, closeAad_eq]
  rfl

/-- The state that a completed AEADENC_FINALIZE leaves, and its response, for what `XORSTREAM` returns. -/
theorem aeadEncFinalize_eq {data ct : Bytes} {s : State} {k : Keystream} (ha : data.length ≤ avail s.ks)
    (hx : xorStream data s.ks = some (ct, k))
    (hlen : (s.datalen + len64 data).toNat = s.datalen.toNat + data.length) :
    aeadEncFinalize data s = respond .ok (BitVec.ofNat 64 (data.length + 16))
      (ct ++ (macOf s.cfg.mac s.auth.key
        (s.auth.msg ++ closingPad s ++ ct ++ macEnd s.aadlen (s.datalen.toNat + data.length))).toList)
      { s with
        aclosed := true, auth := freeAuth s.draws, draws := s.draws + 1, ks := k, aadlen := 0, datalen := 0,
        phase := .uninit } := by
  rw [aeadEncFinalize_completes data ct s _ k ha hx rfl, finishMac_tag, closeAad_eq]
  simp only [hlen, macEnd, authUpdate_auth, List.append_assoc]
  rfl

/-- Settles O48: the ciphertext as in O47, and the response and next state of `aeadEncFinalize_eq`. (The name
`aeadEncFinalize` is the model's.) -/
theorem exec_aeadEncFinalize : Obligations.AeadEncFinalize := by
  intro data cap s hp h hm hd hc
  have heng := (engineOf_aeadEnc _ _).mpr ⟨hm, hd⟩
  have he : exec (.finalize data cap) s = .next (aeadEncFinalize data s) :=
    execFinalize_aeadEnc data cap s (prologue_aeadEnc hp heng hc) heng
  refine ⟨fun ha => ?_, fun ha => ⟨_, aeadEncFinalize_exhausted data s ha ▸ he, rfl, rfl⟩⟩
  obtain ⟨k, hx, -, -⟩ := h.xorStream_at_datalen hm hd ha
  refine ⟨k, _, hx, he, ?_⟩
  rw [aeadEncFinalize_eq ha hx (h.datalen_add_len64 hm hd ha)]
  rfl

end Sys2Proof.Machine
end

section
/-! SUPPORT. Runs of commands that all respond OK, and what they put out together (20_memory.md R71,
30_encoding.md R104). -/

namespace Sys2Proof.Machine

open Sys2Proof

/-- The commands take the machine from one state to another, each responds OK, and their output, concatenated, is the
last argument. -/
inductive RunsOk : List Instr → State → State → Bytes → Prop
  | nil (s) : RunsOk [] s s []
  | cons {i is s s1 t v o out} (hx : exec i s = .next s1) (hr : s1.responses = ⟨.ok, v, o⟩ :: s.responses)
      (h : RunsOk is s1 t out) : RunsOk (i :: is) s t (o ++ out)

theorem RunsOk.append {is js : List Instr} {s t u : State} {o p : Bytes} (h : RunsOk is s t o) (h' : RunsOk js t u p) :
    RunsOk (is ++ js) s u (o ++ p) := by
  induction h with
  | nil => exact h'
  | cons hx hr _ ih => rw [List.append_assoc]; exact .cons hx hr (ih h')

section
variable {is : List Instr} {s t : State} {out : Bytes} (h : RunsOk is s t out)
include h

theorem RunsOk.execAll_eq : execAll is s = .next t := by
  induction h with
  | nil => rfl
  | cons hx _ _ ih => rw [execAll, hx]; exact ih

/-- The newest responses are those of the run. -/
theorem RunsOk.responses : ∃ rs, t.responses = rs ++ s.responses ∧ rs.length = is.length ∧
    (∀ r ∈ rs, r.status = .ok) ∧ (rs.reverse.map Response.out).flatten = out := by
  induction h with
  | nil => exact ⟨[], by simp⟩
  | @cons _ _ _ _ _ v o _ _ hr _ ih =>
    obtain ⟨rs, hrs, hlen, hok, rfl⟩ := ih
    refine ⟨rs ++ [⟨.ok, v, o⟩], by simp [hrs, hr], by simp [hlen], ?_, by simp⟩
    simpa [or_imp, forall_and] using hok

theorem RunsOk.lastResponses_ok : ∀ r ∈ lastResponses is.length t, r.status = .ok := by
  obtain ⟨rs, hrs, hlen, hok, -⟩ := h.responses
  rw [← hlen, lastResponses_of_append hrs]
  exact fun r hr => hok r (List.mem_reverse.mp hr)

theorem RunsOk.lastOutput_eq : lastOutput is.length t = out := by
  obtain ⟨rs, hrs, hlen, -, hout⟩ := h.responses
  rw [← hlen, lastOutput, lastResponses_of_append hrs, hout]

theorem RunsOk.cfg_eq : t.cfg = s.cfg := by
  induction h with
  | nil => rfl
  | cons hx _ _ ih => exact ih.trans (exec_cfg_port hx).1

theorem RunsOk.inv (hs : Inv s) : Inv t := by
  induction h with
  | nil => exact hs
  | cons hx _ _ ih => exact ih (exec_inv hx hs)

end

/-- The AAD may be handed over in any number of pieces, in engine AEAD_ENC and in AEAD_DEC (44_aead_encrypt.md R190). -/
theorem runsOk_updateAads (aads : List Bytes) {s : State} (hm : s.mode = .aead)
    (hp : s.phase = .initialized ∨ s.phase = .aad) (hl : s.aadlen.toNat + aads.flatten.length ≤ Config.maxU64) :
    ∃ (n : U64) (p : Phase) (rs : List Response), n.toNat = s.aadlen.toNat + aads.flatten.length ∧
      (p = .initialized ∨ p = .aad) ∧
      RunsOk (aads.map .updateAad) s
        { s with auth := ⟨s.auth.key, s.auth.msg ++ aads.flatten⟩, aadlen := n, phase := p, responses := rs } [] := by
  induction aads generalizing s with
  | nil => exact ⟨s.aadlen, s.phase, s.responses, rfl, hp, by simpa using RunsOk.nil s⟩
  | cons d aads ih =>
    rw [List.flatten_cons, List.length_append, ← Nat.add_assoc] at hl ⊢
    obtain ⟨n1, hn1, hx⟩ := updateAadFeedsTheAuthenticator d s hm hp (Nat.le_of_add_right_le hl)
    rw [← hn1] at hl ⊢
    obtain ⟨n, p, rs, hn, hp', hrun⟩ := ih (s := { s with
      auth := ⟨s.auth.key, s.auth.msg ++ d⟩, aadlen := n1, phase := .aad, responses := ⟨.ok, 0, []⟩ :: s.responses })
      hm (.inr rfl) hl
    rw [← List.append_assoc]
    exact ⟨n, p, rs, hn, hp', .cons hx rfl hrun⟩

end Sys2Proof.Machine
end

section
/-! SUPPORT. A whole encrypting session (44_aead_encrypt.md R197): what the authenticator has been fed at any point
of it is determined by the AAD and the data so far, wherever the host has cut them. -/

namespace Sys2Proof.Machine

open Sys2Proof

/-! ### Ciphertext and authenticator input -/

@[simp] theorem xorAt_length (start : Words) (first : Word) (p : Nat) (data : Bytes) :
    (xorAt start first p data).length = data.length := List.length_mapIdx

/-- The position goes on from one piece of data to the next. -/
theorem xorAt_append (start : Words) (first : Word) (p : Nat) (a b : Bytes) :
    xorAt start first p (a ++ b) = xorAt start first p a ++ xorAt start first (p + a.length) b := by
  simp only [xorAt, List.mapIdx_append, Nat.add_comm a.length, Nat.add_assoc]

theorem macInput_length_mod (a c : Bytes) : (macInput a c).length % 16 = 0 := by
  simp only [macInput, List.length_append, zeros, List.length_replicate, toLE64_length, pad16]
  omega

/-- The layout of R197 is what `CLOSE_AAD`, the ciphertext and `FINISH_MAC` feed, for a counter that holds the AAD's
length. -/
theorem macInput_eq_macEnd {n : U64} {a : Bytes} (hn : n.toNat = a.length) (c : Bytes) :
    macInput a c = a ++ zeros (pad16 a.length) ++ c ++ macEnd n c.length := by
  have hlen : len64 a = n := by rw [len64, ← hn, BitVec.ofNat_toNat, BitVec.setWidth_eq]
  simp only [macInput, macEnd, hlen, List.append_assoc]
  rfl

/-! ### The session, command by command -/

/-- An open session of engine AEAD_ENC that has taken the AAD `a` and the data `m`. Its authenticator has been fed, or
`CLOSE_AAD` will complete, the padded AAD and the ciphertext. -/
structure Sealing (start : Words) (a m : Bytes) (s : State) : Prop where
  isOpen : s.phase ≠ .uninit
  inv : SessionInv s
  mode : s.mode = .aead
  dir : s.dir = .enc
  start_eq : s.ks.start = start
  aadlen : s.aadlen.toNat = a.length
  datalen : s.datalen.toNat = m.length
  fed : s.auth.msg ++ closingPad s = a ++ zeros (pad16 a.length) ++ xorAt start 1 0 m

theorem Sealing.le_avail {start : Words} {a m data : Bytes} {s : State} (h : Sealing start a m s)
    (hl : (m ++ data).length ≤ 64 * (Config.maxBlocks - 1)) : data.length ≤ avail s.ks := by
  have hav := h.inv.datalen_add_avail h.mode h.dir
  rw [h.datalen] at hav
  rw [List.length_append] at hl
  omega

/-- INIT and the UPDATE_AADs. -/
theorem sealing_after_aads {s : State} {key nonce : Bytes} (ictr : Word) (aads : List Bytes)
    (hs : initAccepted key nonce s) (hl : aads.flatten.length ≤ Config.maxU64) :
    ∃ t, RunsOk (.init .enc .aead key nonce ictr :: aads.map .updateAad) s t [] ∧
      Sealing (startOf s.cfg.sigma key nonce) aads.flatten [] t := by
  have hinv := (sessionInv_initAead .enc key nonce s).after_respond .ok 0 []
  obtain ⟨n, p, rs, hn, hp, hrun⟩ := runsOk_updateAads aads
    (s := respond .ok 0 [] { initAead (initCommon .enc .aead key nonce s) with phase := .initialized })
    rfl (.inl rfl) (by simpa [initAead] using hl)
  have hopen : p ≠ .uninit := by rcases hp with rfl | rfl <;> decide
  have hn' : n.toNat = aads.flatten.length := hn.trans (Nat.zero_add _)
  have hx : exec (.init .enc .aead key nonce ictr) s = .next _ := execInit_aead .enc key nonce ictr s hs
  refine ⟨_, .cons hx rfl hrun, ?_⟩
  exact {
    isOpen := hopen
    inv := hrun.inv (fun _ => hinv) hopen
    mode := rfl
    dir := rfl
    start_eq := rfl
    aadlen := hn'
    datalen := rfl
    fed := by simp [closingPad, initAead, hn', xorAt] }

/-- An UPDATE puts out the ciphertext of its data and goes on with the session. -/
theorem Sealing.update {start : Words} {a m data : Bytes} {cap : U64} {s : State} (h : Sealing start a m s)
    (hl : (m ++ data).length ≤ 64 * (Config.maxBlocks - 1)) (hc : data.length ≤ cap.toNat) :
    ∃ t, exec (.update data cap) s = .next t ∧
      t.responses = ⟨.ok, len64 data, xorAt start 1 m.length data⟩ :: s.responses ∧ Sealing start a (m ++ data) t := by
  obtain ⟨k, n, -, hstart, -, hn, hx⟩ :=
    (exec_aeadEncUpdate data cap s h.isOpen h.inv h.mode h.dir hc).1 (h.le_avail hl)
  rw [h.start_eq, h.datalen, h.fed] at hx
  refine ⟨_, hx, rfl, ?_⟩
  exact {
    isOpen := nofun
    inv := exec_inv hx (fun _ => h.inv) nofun
    mode := h.mode
    dir := h.dir
    start_eq := hstart.trans h.start_eq
    aadlen := h.aadlen
    datalen := by rw [hn, h.datalen, List.length_append]
    fed := by simp [closingPad, xorAt_append] }

/-- The tag of a session with start state `start`, AAD `a` and data `m`, over R197's layout. -/
def sealTag (mac : Config.Authenticator) (start : Words) (a m : Bytes) : Vector Byte 16 :=
  macOf mac (subkeyOf start) (macInput a (xorAt start 1 0 m))

/-- A FINALIZE puts out the ciphertext of its data and the tag. -/
theorem Sealing.finalize {start : Words} {a m data : Bytes} {cap : U64} {s : State} (h : Sealing start a m s)
    (hl : (m ++ data).length ≤ 64 * (Config.maxBlocks - 1)) (hc : data.length + 16 ≤ cap.toNat) :
    ∃ t, exec (.finalize data cap) s = .next t ∧
      t.responses = ⟨.ok, .ofNat 64 (data.length + 16),
        xorAt start 1 m.length data ++ (sealTag s.cfg.mac start a (m ++ data)).toList⟩ :: s.responses := by
  obtain ⟨k, t, -, hx, ht⟩ :=
    (exec_aeadEncFinalize data cap s h.isOpen h.inv h.mode h.dir hc).1 (h.le_avail hl)
  refine ⟨t, hx, (congrArg State.responses ht).trans ?_⟩
  rw [sealTag, macInput_eq_macEnd h.aadlen, xorAt_append, h.inv.authKeyIsSubkey h.mode, h.start_eq, h.datalen, h.fed]
  simp

/-- Any number of UPDATEs and the FINALIZE put out, together, what the FINALIZE alone would for all of the data. -/
theorem Sealing.finish {start : Words} {a m last : Bytes} {cap : U64} {s : State} (h : Sealing start a m s)
    (datas : List Bytes) (hl : (m ++ (datas.flatten ++ last)).length ≤ 64 * (Config.maxBlocks - 1))
    (hc : (datas.flatten ++ last).length + 16 ≤ cap.toNat) :
    ∃ t, RunsOk (datas.map (.update · cap) ++ [.finalize last cap]) s t
      (xorAt start 1 m.length (datas.flatten ++ last) ++
        (sealTag s.cfg.mac start a (m ++ (datas.flatten ++ last))).toList) := by
  induction datas generalizing m s with
  | nil =>
    obtain ⟨t, hx, hr⟩ := h.finalize hl hc
    exact ⟨t, by simpa using RunsOk.cons hx hr (.nil t)⟩
  | cons d datas ih =>
    rw [List.flatten_cons, List.append_assoc] at hl hc ⊢
    rw [List.length_append] at hc
    rw [← List.append_assoc m d] at hl ⊢
    obtain ⟨s1, hx, hr, h1⟩ := h.update (data := d) (cap := cap)
      (Nat.le_of_add_right_le (List.length_append ▸ hl)) (by omega)
    obtain ⟨t, hrun⟩ := ih h1 hl (by omega)
    rw [(exec_cfg_port hx).1, List.length_append] at hrun
    rw [xorAt_append _ _ _ d, List.append_assoc (xorAt start 1 m.length d)]
    exact ⟨t, .cons hx hr hrun⟩

/-! ### The whole session -/

theorem aeadSession_length (dir : Dir) (key nonce : Bytes) (ictr : Word) (aads datas : List Bytes) (last : Bytes)
    (cap : U64) : (aeadSession dir key nonce ictr aads datas last cap).length = sessionLength aads datas := by
  simp only [aeadSession, sessionLength, List.length_cons, List.length_append, List.length_map, List.length_nil]
  omega

/-- INIT and the UPDATE_AADs put out nothing, the UPDATEs and the FINALIZE the ciphertext and the tag. -/
theorem runsOk_aeadSession_enc {s : State} {key nonce last : Bytes} {aads datas : List Bytes} {cap : U64} (ictr : Word)
    (hs : initAccepted key nonce s) (haad : aads.flatten.length ≤ Config.maxU64)
    (hlen : (datas.flatten ++ last).length ≤ 64 * (Config.maxBlocks - 1))
    (hcap : (datas.flatten ++ last).length + 16 ≤ cap.toNat) :
    ∃ t, RunsOk (aeadSession .enc key nonce ictr aads datas last cap) s t
      (xorAt (startOf s.cfg.sigma key nonce) 1 0 (datas.flatten ++ last) ++
        (sealTag s.cfg.mac (startOf s.cfg.sigma key nonce) aads.flatten (datas.flatten ++ last)).toList) := by
  obtain ⟨s1, hrun1, h1⟩ := sealing_after_aads ictr aads hs haad
  obtain ⟨t, hrun2⟩ := h1.finish datas hlen hcap
  rw [hrun1.cfg_eq] at hrun2
  exact ⟨t, hrun1.append hrun2⟩

/-- Settles O49: the run that `runsOk_aeadSession_enc` finds, its responses and its output. -/
theorem sealedSession : Obligations.SealedSession := by
  intro s key nonce ictr aads datas last cap hs haad hlen hcap
  obtain ⟨t, hrun⟩ := runsOk_aeadSession_enc ictr hs haad hlen hcap
  rw [← aeadSession_length .enc key nonce ictr aads datas last cap]
  exact ⟨t, hrun.execAll_eq, hrun.lastResponses_ok, hrun.lastOutput_eq, macInput_length_mod _ _⟩

end Sys2Proof.Machine
end

section
/-! SUPPORT. The AEAD Decrypt Engine, one command at a time (45_aead_decrypt.md R212 to R217, R221): what an UPDATE and a
FINALIZE past the prologue leave as the whole next state, and the errors `Overflow`, `BadTag` and `CounterExhausted`. -/

namespace Sys2Proof.Machine

open Sys2Proof

/-! ### Past the prologue (R182) -/

/-- An UPDATE puts out nothing, so it passes the prologue whatever its capacity is. -/
theorem exec_update_dec {data : Bytes} {cap : U64} {s : State} (hp : s.phase ≠ .uninit)
    (he : engineOf s.mode s.dir = .aeadDec) : exec (.update data cap) s = .next (aeadDecUpdate data s) :=
  execUpdate_aeadDec data cap s (prologue_passes data cap false s hp (by simp [getSize_aeadDec s _ _ he])) he

theorem exec_finalize_dec {data : Bytes} {cap : U64} {s : State} (hp : s.phase ≠ .uninit)
    (he : engineOf s.mode s.dir = .aeadDec) (hc : s.pend.length + data.length - 16 ≤ cap.toNat) :
    exec (.finalize data cap) s = .next (aeadDecFinalize data s) :=
  execFinalize_aeadDec data cap s (prologue_passes data cap true s hp (by rwa [getSize_aeadDec s _ _ he])) he

/-! ### AEADDEC_UPDATE (R212, R213) -/

/-- Settles O50: the capacity test decides between the two outcomes. -/
theorem aeadDecUpdateOnlyBuffers : Obligations.AeadDecUpdateOnlyBuffers := by
  intro data cap s hp hm hd
  have he : exec (.update data cap) s = .next (aeadDecUpdate data s) :=
    exec_update_dec hp ((engineOf_aeadDec _ _).mpr ⟨hm, hd⟩)
  refine ⟨fun hfits => ?_, fun n hn hlt => ?_⟩
  · have hpass : passesCapacity s data.length = false := by
      rw [← Bool.not_eq_true, passesCapacity_iff]
      rintro ⟨n, hn, hlt⟩
      exact Nat.not_lt.mpr (hfits n hn) hlt
    rw [he, aeadDecUpdate_completes data s hpass, closeAad_eq]
    rfl
  · have hover := aeadDecUpdate_overflows data s ((passesCapacity_iff _ _).mpr ⟨n, hn, hlt⟩)
    exact ⟨_, hover ▸ he, rfl, rfl⟩

/-! ### The outcomes of AEADDEC_FINALIZE (R214) -/

/-- What steps 1 to 6 of R214 leave. -/
theorem decVerified_eq (data : Bytes) (s : State) :
    decVerified data s = { s with aclosed := true, auth := freeAuth s.draws, draws := s.draws + 1 } := by
  rw [decVerified, closeAad_eq]
  rfl

/-- What was received is no ciphertext with its tag: it is too short, or the tags differ (R214 steps 3 and 7). -/
def Rejected (s : State) (data : Bytes) : Prop :=
  (received s data).length < 16 ∨ (computedTag s data).toList ≠ receivedTag s data

theorem aeadDecFinalize_rejected {data : Bytes} {s : State} (h : Rejected s data) :
    ∃ s1, aeadDecFinalize data s = raise .badTag s1 ∧ SameRecord s s1 := by
  rw [aeadDecFinalize_eq]
  by_cases hl : (received s data).length < 16
  · exact ⟨_, if_pos hl, .closed s⟩
  · have htag : ¬tagEq (computedTag s data).toList (receivedTag s data) = true := by
      rw [tagEq_iff (by simp) (receivedTag_length (Nat.not_lt.mp hl))]
      exact h.resolve_left hl
    exact ⟨_, by rw [if_neg hl, if_pos (by simpa using htag)], .verified data s⟩

theorem aeadDecFinalize_exhausted {data : Bytes} {s : State} (hl : 16 ≤ (received s data).length)
    (ht : tagEq (computedTag s data).toList (receivedTag s data) = true)
    (ha : avail s.ks < (receivedCt s data).length) :
    aeadDecFinalize data s = raise .counterExhausted (decVerified data s) := by
  rw [aeadDecFinalize_eq, if_neg (Nat.not_lt.mpr hl), ht, if_neg (by simp), if_pos ha]

/-- A rejected FINALIZE responds `BadTag` and closes the session. -/
theorem exec_finalize_rejected {data : Bytes} {cap : U64} {s : State} (hp : s.phase ≠ .uninit)
    (he : engineOf s.mode s.dir = .aeadDec) (hc : s.pend.length + data.length - 16 ≤ cap.toNat)
    (h : Rejected s data) : ∃ t, exec (.finalize data cap) s = .next t ∧ t.phase = .uninit ∧
      t.responses = ⟨.err .badTag, 0, []⟩ :: s.responses := by
  obtain ⟨s1, hs1, hsame⟩ := aeadDecFinalize_rejected h
  exact ⟨_, hs1 ▸ exec_finalize_dec hp he hc, rfl, congrArg _ hsame.responses⟩

section
variable {s : State} (h : SessionInv s) (hm : s.mode = .aead) (hd : s.dir = .dec)
include h hm hd

/-- No keystream is used before FINALIZE: all of the session's budget is left (20_memory.md R74). -/
theorem SessionInv.avail_dec : avail s.ks = 64 * (Config.maxBlocks - 1) := by
  obtain ⟨-, hblocks, hoffset⟩ := h.decIdle ((engineOf_aeadDec _ _).mpr ⟨hm, hd⟩)
  rw [avail, hblocks, hoffset, Nat.sub_self, Nat.zero_add]

/-- XORSTREAM starts at position 0 of the keystream that begins with counter 1. -/
theorem SessionInv.xorStream_dec {ct : Bytes} (ha : ct.length ≤ avail s.ks) :
    ∃ k, xorStream ct s.ks = some (xorAt s.ks.start 1 0 ct, k) := by
  obtain ⟨k, hx, -⟩ := h.xorStream_at ha
  have hfirst : firstCounter s = 1 := by rw [firstCounter, hm]
  have hpos : keystreamPos s = 0 := by
    obtain ⟨-, hblocks, hoffset⟩ := h.decIdle ((engineOf_aeadDec _ _).mpr ⟨hm, hd⟩)
    simp [keystreamPos, hm, firstBlocks, hblocks, hoffset]
  rw [hfirst, hpos] at hx
  exact ⟨k, hx⟩

end

/-- Settles O51: too short or a wrong tag is `Rejected`; with the right tag, AVAIL decides. (The name `aeadDecFinalize` is
the model's.) -/
theorem exec_aeadDecFinalize : Obligations.AeadDecFinalize := by
  intro data cap s hp h hm hd hc
  have heng := (engineOf_aeadDec _ _).mpr ⟨hm, hd⟩
  have he : exec (.finalize data cap) s = .next (aeadDecFinalize data s) := exec_finalize_dec hp heng hc
  have hteq (hl : 16 ≤ (received s data).length) (htag : (computedTag s data).toList = receivedTag s data) :
      tagEq (computedTag s data).toList (receivedTag s data) = true :=
    (tagEq_iff (by simp) (receivedTag_length hl)).mpr htag
  refine ⟨exec_finalize_rejected hp heng hc, fun hl htag ha => ?_, fun hl htag ha => ?_⟩
  · rw [he, aeadDecFinalize_exhausted hl (hteq hl htag) ha, decVerified_eq]
    exact ⟨_, rfl, rfl, rfl⟩
  · obtain ⟨k, hx⟩ := h.xorStream_dec hm hd ha
    rw [he, aeadDecFinalize_completes hl (hteq hl htag) ha hx, decVerified_eq]
    exact ⟨k, _, hx, rfl, rfl⟩

/-! ### Failed verifications (R216, R217, R221) -/

/-- Settles O53. -/
theorem tagEqIsEquality : Obligations.TagEqIsEquality := fun _ _ => tagEq_iff

theorem err_ite_eq_err {c : Prop} [Decidable c] {e e' : ErrorKind} {st : Status} :
    (if c then .err e else st) = Status.err e' ↔ c ∧ e = e' ∨ ¬c ∧ st = .err e' := by
  split <;> simp [*]

/-- In the table of 60_exceptions.md R245, `BadTag` stands in one place: past the prologue of engine AEAD_DEC. -/
theorem rejected_of_status {data : Bytes} {cap : U64} {s : State}
    (h : statusOf (.finalize data cap) s = .err .badTag) :
    s.phase ≠ .uninit ∧ engineOf s.mode s.dir = .aeadDec ∧ s.pend.length + data.length - 16 ≤ cap.toNat ∧
      Rejected s data := by
  simp only [statusOf, err_ite_eq_err, reduceCtorEq, and_false, false_or] at h
  obtain ⟨hp, h⟩ := h
  cases he : engineOf s.mode s.dir with
  | stream | aeadEnc => simp [he, err_ite_eq_err] at h
  | aeadDec =>
    simp only [he, err_ite_eq_err, reduceCtorEq, and_false, false_or, and_true, or_false, Nat.not_lt] at h
    obtain ⟨hc, hrej⟩ := h
    exact ⟨hp, rfl, hc, hrej.imp_right And.right⟩

/-- Without a session the phase table allows INIT alone (10_state.md R26). -/
theorem phaseAfterOk_of_uninit {i : Instr} {s : State} (hp : s.phase = .uninit)
    (hi : ∀ dir mode key nonce ictr, i ≠ .init dir mode key nonce ictr) : phaseAfterOk i s = none := by
  cases i with
  | init dir mode key nonce ictr => exact absurd rfl (hi dir mode key nonce ictr)
  | updateAad => exact if_pos (.inl hp)
  | update | finalize | getOutputSize => exact if_pos hp

/-- Settles O52: `BadTag` is raised, and after it the phase table refuses every command but INIT. -/
theorem badTagReleasesNothing : Obligations.BadTagReleasesNothing := by
  intro data cap s h
  obtain ⟨hp, he, hc, hrej⟩ := rejected_of_status h
  obtain ⟨t, hx, hpt, hr⟩ := exec_finalize_rejected hp he hc hrej
  refine ⟨t, _, hx, hr, by decide, fun i hi => ?_⟩
  exact ⟨_, _, exec_illegal (phaseAfterOk_of_uninit hpt hi), rfl, rfl, rfl⟩

theorem received_eq_append (s : State) (data : Bytes) : received s data = receivedCt s data ++ receivedTag s data :=
  (List.take_append_drop _ _).symm

/-- The computed tag depends on what was received through its ciphertext part alone (R218). -/
theorem computedTag_congr {s : State} {data data' : Bytes} (h : receivedCt s data' = receivedCt s data) :
    computedTag s data' = computedTag s data := by
  rw [computedTag, h, computedTag]

/-- Settles O54: the same tag is computed, and two presented tags can't both equal it. -/
theorem flippedTagIsRejected : Obligations.FlippedTagIsRejected := by
  intro data data' cap s hp hm hd hok hlen hct hne
  have he := (engineOf_aeadDec _ _).mpr ⟨hm, hd⟩
  simp only [statusOf, if_neg hp, he, err_ite_eq_ok, not_not, ne_eq, Nat.not_lt] at hok
  obtain ⟨hc, -, htag, -⟩ := hok
  refine exec_finalize_rejected hp he (hlen ▸ hc) (.inr fun htag' => hne ?_)
  rw [computedTag_congr hct, htag] at htag'
  have hrec : received s data' = received s data := by rw [received_eq_append, hct, ← htag', ← received_eq_append]
  exact List.append_cancel_left hrec

end Sys2Proof.Machine
end

section
/-! SUPPORT. A whole decrypting session (45_aead_decrypt.md R220): fed the ciphertext and the tag of an encrypting session,
cut anywhere, it puts out the plaintext. -/

namespace Sys2Proof.Machine

open Sys2Proof

/-- The same keystream bytes give the data back (41_keystream_and_xor.md R150). -/
theorem xorAt_xorAt (start : Words) (first : Word) (p : Nat) (data : Bytes) :
    xorAt start first p (xorAt start first p data) = data := by
  apply List.ext_getElem
  · simp
  · intro i _ _
    simp [xorAt]

/-- Sixteen bytes at the end of everything received are the presented tag (R215). -/
theorem receivedCt_receivedTag_of_append {s : State} {data c : Bytes} {tag : Vector Byte 16}
    (h : received s data = c ++ tag.toList) : receivedCt s data = c ∧ receivedTag s data = tag.toList := by
  have hlen : (received s data).length - 16 = c.length := by simp [h]
  rw [receivedCt, receivedTag, hlen, h]
  exact ⟨List.take_left, List.drop_left⟩

/-- An open session of engine AEAD_DEC that has taken the AAD `a` and holds the data `m`. Its authenticator has been fed,
or `CLOSE_AAD` will complete, the padded AAD. -/
structure Opening (start : Words) (a m : Bytes) (s : State) : Prop where
  isOpen : s.phase ≠ .uninit
  inv : SessionInv s
  mode : s.mode = .aead
  dir : s.dir = .dec
  start_eq : s.ks.start = start
  aadlen : s.aadlen.toNat = a.length
  pend : s.pend = m
  fed : s.auth.msg ++ closingPad s = a ++ zeros (pad16 a.length)

/-- INIT and the UPDATE_AADs. -/
theorem opening_after_aads {s : State} {key nonce : Bytes} (ictr : Word) (aads : List Bytes)
    (hs : initAccepted key nonce s) (hl : aads.flatten.length ≤ Config.maxU64) :
    ∃ t, RunsOk (.init .dec .aead key nonce ictr :: aads.map .updateAad) s t [] ∧
      Opening (startOf s.cfg.sigma key nonce) aads.flatten [] t := by
  have hinv := (sessionInv_initAead .dec key nonce s).after_respond .ok 0 []
  obtain ⟨n, p, rs, hn, hp, hrun⟩ := runsOk_updateAads aads
    (s := respond .ok 0 [] { initAead (initCommon .dec .aead key nonce s) with phase := .initialized })
    rfl (.inl rfl) (by simpa [initAead] using hl)
  have hopen : p ≠ .uninit := by rcases hp with rfl | rfl <;> decide
  have hn' : n.toNat = aads.flatten.length := hn.trans (Nat.zero_add _)
  have hx : exec (.init .dec .aead key nonce ictr) s = .next _ := execInit_aead .dec key nonce ictr s hs
  refine ⟨_, .cons hx rfl hrun, ?_⟩
  exact {
    isOpen := hopen
    inv := hrun.inv (fun _ => hinv) hopen
    mode := rfl
    dir := rfl
    start_eq := rfl
    aadlen := hn'
    pend := rfl
    fed := by simp [closingPad, initAead, hn'] }

/-- An UPDATE that fits the buffer puts out nothing and goes on with the session. -/
theorem Opening.update {start : Words} {a m data : Bytes} {s : State} (h : Opening start a m s) (cap : U64)
    (hfits : ∀ n, s.cfg.pendingCap = some n → (m ++ data).length ≤ n) :
    ∃ t, exec (.update data cap) s = .next t ∧ t.responses = ⟨.ok, 0, []⟩ :: s.responses ∧
      Opening start a (m ++ data) t := by
  have hx := (aeadDecUpdateOnlyBuffers data cap s h.isOpen h.mode h.dir).1
    (by simpa only [h.pend, List.length_append] using hfits)
  rw [h.pend, h.fed] at hx
  refine ⟨_, hx, rfl, ?_⟩
  exact {
    isOpen := nofun
    inv := exec_inv hx (fun _ => h.inv) nofun
    mode := h.mode
    dir := h.dir
    start_eq := h.start_eq
    aadlen := h.aadlen
    pend := rfl
    fed := by simp [closingPad] }

/-- Over the ciphertext of the data `d`, FINALIZE computes the tag that an encrypting session puts out. -/
theorem Opening.computedTag_eq {start : Words} {a m d data : Bytes} {s : State} (h : Opening start a m s)
    (hct : receivedCt s data = xorAt start 1 0 d) : computedTag s data = sealTag s.cfg.mac start a d := by
  rw [computedTag, sealTag, macInput_eq_macEnd h.aadlen, hct, h.inv.authKeyIsSubkey h.mode, h.start_eq, h.fed]

/-- A FINALIZE that completes the ciphertext and the tag of the data `d` puts out `d`. -/
theorem Opening.finalize {start : Words} {a m d data : Bytes} {cap : U64} {s : State} (h : Opening start a m s)
    (hrec : m ++ data = xorAt start 1 0 d ++ (sealTag s.cfg.mac start a d).toList)
    (hl : d.length ≤ 64 * (Config.maxBlocks - 1)) (hc : d.length ≤ cap.toNat) :
    ∃ t v, exec (.finalize data cap) s = .next t ∧ t.responses = ⟨.ok, v, d⟩ :: s.responses := by
  rw [← h.pend] at hrec
  obtain ⟨hct, htag⟩ := receivedCt_receivedTag_of_append hrec
  have hlen : s.pend.length + data.length = d.length + 16 := by simpa using congrArg List.length hrec
  have hav : (receivedCt s data).length ≤ avail s.ks := by
    rw [hct, xorAt_length, h.inv.avail_dec h.mode h.dir]
    exact hl
  obtain ⟨k, t, -, hx, ht⟩ := (exec_aeadDecFinalize data cap s h.isOpen h.inv h.mode h.dir (by omega)).2.2
    (by simp [received, hlen]) (by rw [h.computedTag_eq hct, htag]) hav
  rw [hct, h.start_eq, xorAt_xorAt] at ht
  exact ⟨t, _, hx, congrArg State.responses ht⟩

/-- Any number of UPDATEs and the FINALIZE put out, together, what the FINALIZE alone would for all of the data. -/
theorem Opening.finish {start : Words} {a m d last : Bytes} {cap : U64} {s : State} (h : Opening start a m s)
    (datas : List Bytes)
    (hrec : m ++ (datas.flatten ++ last) = xorAt start 1 0 d ++ (sealTag s.cfg.mac start a d).toList)
    (hfits : ∀ n, s.cfg.pendingCap = some n → (m ++ datas.flatten).length ≤ n)
    (hl : d.length ≤ 64 * (Config.maxBlocks - 1)) (hc : d.length ≤ cap.toNat) :
    ∃ t, RunsOk (datas.map (.update · cap) ++ [.finalize last cap]) s t d := by
  induction datas generalizing m s with
  | nil =>
    obtain ⟨t, v, hx, hr⟩ := h.finalize hrec hl hc
    exact ⟨t, by simpa using RunsOk.cons hx hr (.nil t)⟩
  | cons b datas ih =>
    rw [List.flatten_cons, List.append_assoc, ← List.append_assoc m b] at hrec
    rw [List.flatten_cons, ← List.append_assoc m b] at hfits
    obtain ⟨s1, hx, hr, h1⟩ := h.update (data := b) cap
      fun n hn => Nat.le_of_add_right_le (List.length_append ▸ hfits n hn)
    obtain ⟨t, hrun⟩ := ih h1 (by rwa [(exec_cfg_port hx).1]) (by rwa [(exec_cfg_port hx).1])
    exact ⟨t, .cons hx hr hrun⟩

/-- A decrypting session that is fed the ciphertext and the tag of the data `d` puts out `d`. -/
theorem runsOk_aeadSession_dec {s : State} {key nonce d last : Bytes} {aads datas : List Bytes} {cap : U64} (ictr : Word)
    (hs : initAccepted key nonce s) (haad : aads.flatten.length ≤ Config.maxU64)
    (hrec : datas.flatten ++ last = xorAt (startOf s.cfg.sigma key nonce) 1 0 d ++
      (sealTag s.cfg.mac (startOf s.cfg.sigma key nonce) aads.flatten d).toList)
    (hfits : ∀ n, s.cfg.pendingCap = some n → datas.flatten.length ≤ n)
    (hlen : d.length ≤ 64 * (Config.maxBlocks - 1)) (hcap : d.length ≤ cap.toNat) :
    ∃ t, RunsOk (aeadSession .dec key nonce ictr aads datas last cap) s t d := by
  obtain ⟨s1, hrun1, h1⟩ := opening_after_aads ictr aads hs haad
  obtain ⟨t, hrun2⟩ := h1.finish datas (by rwa [hrun1.cfg_eq]) (by rwa [hrun1.cfg_eq]) hlen hcap
  exact ⟨t, hrun1.append hrun2⟩

/-- Settles O56: `runsOk_aeadSession_enc` says what the first session puts out, and `runsOk_aeadSession_dec` what the
second makes of it. -/
theorem aeadRoundTrip : Obligations.AeadRoundTrip := by
  intro s t key nonce c1 c2 aads aads' datas datas' last last' cap cap' hsigma hmac hs ht haad haads hlen hcap hcap' hfits
  obtain ⟨s', hseal⟩ := runsOk_aeadSession_enc c1 hs haad hlen hcap
  refine ⟨s', hseal.execAll_eq, fun hfed => ?_⟩
  rw [← aeadSession_length .enc key nonce c1 aads datas last cap, hseal.lastOutput_eq, hsigma, hmac, ← haads] at hfed
  obtain ⟨t', hopen⟩ := runsOk_aeadSession_dec c2 ht (haads ▸ haad) hfed hfits hlen hcap'
  rw [← aeadSession_length .dec key nonce c2 aads' datas' last' cap']
  exact ⟨t', hopen.execAll_eq, hopen.lastResponses_ok, hopen.lastOutput_eq⟩

end Sys2Proof.Machine
end

section
/-! SUPPORT. The table of errors (60_exceptions.md R240, R245): a command whose row in `statusOf` ends in an error
raises that error, with the record untouched, and one whose row passes every test completes. -/

namespace Sys2Proof.Machine

open Sys2Proof

/-! ### Taking a row of the table apart, test by test -/

/-- The command raises `e`, from a state that still holds the record of `s`. -/
def Raises (i : Instr) (s : State) (e : ErrorKind) : Prop :=
  ∃ s1, exec i s = .next (raise e s1) ∧ SameRecord s s1

section
variable {i : Instr} {s : State} {e : ErrorKind}

theorem raises_self (h : exec i s = .next (raise e s)) : Raises i s e := ⟨s, h, .self s⟩

/-- The first test of a row, and the rest of the row where that test passes. -/
theorem raises_of_test {c : Prop} [Decidable c] {e₀ : ErrorKind} {st : Status}
    (h : (if c then .err e₀ else st) = .err e) (hfail : c → Raises i s e₀)
    (hpass : ¬c → st = .err e → Raises i s e) : Raises i s e := by
  obtain ⟨hc, rfl⟩ | ⟨hc, hst⟩ := err_ite_eq_err.mp h
  · exact hfail hc
  · exact hpass hc hst

/-- The row of the engines that encipher what they are given: the capacity, then the keystream that is left. -/
theorem raises_of_cipher_row {short exhausted : Prop} [Decidable short] [Decidable exhausted]
    (h : (if short then .err .shortBuffer else if exhausted then .err .counterExhausted else .ok) = Status.err e)
    (hshort : short → Raises i s .shortBuffer)
    (hexhausted : ¬short → exhausted → Raises i s .counterExhausted) : Raises i s e :=
  raises_of_test h hshort fun hc h => raises_of_test h (hexhausted hc) fun _ => nofun

end

/-! ### INIT, UPDATE_AAD, GET_OUTPUT_SIZE -/

/-- The row of INIT: accepted, or one of its two errors. -/
theorem statusOf_init (dir : Dir) (mode : Mode) (key nonce : Bytes) (ictr : Word) (s : State) :
    (initAccepted key nonce s ∧ statusOf (.init dir mode key nonce ictr) s = .ok) ∨
    statusOf (.init dir mode key nonce ictr) s = .err .invalidKey ∨
    statusOf (.init dir mode key nonce ictr) s = .err .nonceReuse := by
  simp only [statusOf]
  split
  next => exact .inr (.inl rfl)
  next hl =>
    simp only [ne_eq, not_or, not_not] at hl
    split
    next => exact .inr (.inr rfl)
    next hr => exact .inl ⟨⟨hl.1, hl.2, hr⟩, rfl⟩

theorem init_raises {dir : Dir} {mode : Mode} {key nonce : Bytes} {ictr : Word} {s : State} {e : ErrorKind}
    (h : statusOf (.init dir mode key nonce ictr) s = .err e) : Raises (.init dir mode key nonce ictr) s e := by
  refine raises_of_test h (fun hl => raises_self (execInit_invalidKey dir mode key nonce ictr s hl)) fun hl h => ?_
  simp only [ne_eq, not_or, not_not] at hl
  exact raises_of_test h (fun hr => raises_self (execInit_nonceReuse dir mode key nonce ictr s hl hr)) fun _ => nofun

theorem init_completes {dir : Dir} {mode : Mode} {key nonce : Bytes} {ictr : Word} {s : State}
    (h : statusOf (.init dir mode key nonce ictr) s = .ok) :
    ∃ t, exec (.init dir mode key nonce ictr) s = .next t ∧ Done (.init dir mode key nonce ictr) s t := by
  obtain ⟨ha, -⟩ | h' | h' := statusOf_init dir mode key nonce ictr s
  · cases mode with
    | stream => exact ⟨_, execInit_stream dir key nonce ictr s ha, .initStream dir key nonce ictr s ha⟩
    | aead => exact ⟨_, execInit_aead dir key nonce ictr s ha, .initAead dir key nonce ictr s ha⟩
  · cases h.symm.trans h'
  · cases h.symm.trans h'

/-- The phases in which an UPDATE_AAD that passes its first test stands. -/
theorem legal_aad {s : State} (h : ¬(s.phase = .uninit ∨ s.mode ≠ .aead ∨ s.phase = .data)) :
    s.mode = .aead ∧ (s.phase = .initialized ∨ s.phase = .aad) := by
  simp only [not_or, not_not, ne_eq] at h
  obtain ⟨hu, hm, hd⟩ := h
  refine ⟨hm, ?_⟩
  cases hp : s.phase with
  | uninit => exact absurd hp hu
  | initialized => exact .inl rfl
  | aad => exact .inr rfl
  | data => exact absurd hp hd

theorem updateAad_raises {data : Bytes} {s : State} {e : ErrorKind} (h : statusOf (.updateAad data) s = .err e) :
    Raises (.updateAad data) s e := by
  refine raises_of_test h (fun hi => raises_self (execUpdateAad_illegal data s hi)) fun hi h => ?_
  obtain ⟨hm, hp⟩ := legal_aad hi
  exact raises_of_test h (fun hv => raises_self ((execUpdateAad_legal data s hm hp).trans (if_pos hv))) fun _ => nofun

theorem updateAad_completes {data : Bytes} {s : State} (h : statusOf (.updateAad data) s = .ok) :
    ∃ t, exec (.updateAad data) s = .next t ∧ Done (.updateAad data) s t := by
  simp only [statusOf, err_ite_eq_ok, and_true] at h
  obtain ⟨hi, hv⟩ := h
  obtain ⟨hm, hp⟩ := legal_aad hi
  exact ⟨_, (execUpdateAad_legal data s hm hp).trans (if_neg hv), .updateAad data s hm hp (Nat.not_lt.mp hv)⟩

theorem query_raises {n : U64} {f : Bool} {s : State} {e : ErrorKind} (h : statusOf (.getOutputSize n f) s = .err e) :
    Raises (.getOutputSize n f) s e :=
  raises_of_test h (fun hp => raises_self (execGetOutputSize_illegal n f s hp)) fun hp h =>
    raises_of_test h (fun hv => raises_self ((execGetOutputSize_session n f s hp).trans (if_pos hv))) fun _ => nofun

theorem query_completes {n : U64} {f : Bool} {s : State} (h : statusOf (.getOutputSize n f) s = .ok) :
    ∃ t, exec (.getOutputSize n f) s = .next t ∧ Done (.getOutputSize n f) s t := by
  simp only [statusOf, err_ite_eq_ok, and_true] at h
  obtain ⟨hp, hv⟩ := h
  exact ⟨_, (execGetOutputSize_session n f s hp).trans (if_neg hv), .query n f s hp (Nat.not_lt.mp hv)⟩

/-! ### UPDATE and FINALIZE -/

theorem update_raises {data : Bytes} {cap : U64} {s : State} {e : ErrorKind}
    (h : statusOf (.update data cap) s = .err e) : Raises (.update data cap) s e := by
  have hraise {e : ErrorKind} (hpro : prologue data cap false s = some e) : Raises (.update data cap) s e :=
    raises_self (execUpdate_raise data cap s e hpro)
  refine raises_of_test h (fun hp => hraise (prologue_uninit data cap false s hp)) fun hp h => ?_
  have hshort (hc : cap.toNat < getSize s data.length false) := hraise (prologue_short data cap false s hp hc)
  cases he : engineOf s.mode s.dir with
  | stream =>
    rw [getSize_stream s _ _ he] at hshort
    simp only [he] at h
    refine raises_of_cipher_row h hshort fun hc ha => raises_self ?_
    have hpro := prologue_stream hp ((engineOf_stream _ _).mp he) (Nat.not_lt.mp hc) false
    rw [← streamUpdate_exhausted data s ha]
    exact execUpdate_stream data cap s hpro he
  | aeadEnc =>
    rw [getSize_aeadEnc s _ false he] at hshort
    simp only [he] at h
    refine raises_of_cipher_row h hshort fun hc ha => raises_self ?_
    rw [← aeadEncUpdate_exhausted data s ha]
    exact execUpdate_aeadEnc data cap s (prologue_aeadEnc hp he (Nat.not_lt.mp hc)) he
  | aeadDec =>
    simp only [he] at h
    cases hcap : s.cfg.pendingCap with
    | none => simp [hcap] at h
    | some n =>
      simp only [hcap] at h
      refine raises_of_test h (fun hn => raises_self ?_) fun _ => nofun
      rw [← aeadDecUpdate_overflows data s ((passesCapacity_iff s _).mpr ⟨n, hcap, hn⟩)]
      exact exec_update_dec hp he

theorem finalize_raises {data : Bytes} {cap : U64} {s : State} {e : ErrorKind}
    (h : statusOf (.finalize data cap) s = .err e) : Raises (.finalize data cap) s e := by
  have hraise {e : ErrorKind} (hpro : prologue data cap true s = some e) : Raises (.finalize data cap) s e :=
    raises_self (execFinalize_raise data cap s e hpro)
  refine raises_of_test h (fun hp => hraise (prologue_uninit data cap true s hp)) fun hp h => ?_
  have hshort (hc : cap.toNat < getSize s data.length true) := hraise (prologue_short data cap true s hp hc)
  cases he : engineOf s.mode s.dir with
  | stream =>
    rw [getSize_stream s _ _ he] at hshort
    simp only [he] at h
    refine raises_of_cipher_row h hshort fun hc ha => raises_self ?_
    have hpro := prologue_stream hp ((engineOf_stream _ _).mp he) (Nat.not_lt.mp hc) true
    rw [← streamFinalize_exhausted data s ha]
    exact execFinalize_stream data cap s hpro he
  | aeadEnc =>
    rw [getSize_aeadEnc s _ true he] at hshort
    simp only [he] at h
    refine raises_of_cipher_row h hshort fun hc ha => raises_self ?_
    rw [← aeadEncFinalize_exhausted data s ha]
    exact execFinalize_aeadEnc data cap s (prologue_aeadEnc hp he (Nat.not_lt.mp hc)) he
  | aeadDec =>
    rw [getSize_aeadDec s _ true he] at hshort
    simp only [he] at h
    refine raises_of_test h hshort fun hc h => ?_
    have hexec : exec (.finalize data cap) s = .next (aeadDecFinalize data s) :=
      exec_finalize_dec hp he (Nat.not_lt.mp hc)
    have hrejected (hr : Rejected s data) : Raises (.finalize data cap) s .badTag := by
      obtain ⟨s1, hs1, hsame⟩ := aeadDecFinalize_rejected hr
      exact ⟨s1, hs1 ▸ hexec, hsame⟩
    refine raises_of_test h (fun hl => hrejected (.inl hl)) fun hl h => ?_
    refine raises_of_test h (fun htag => hrejected (.inr htag)) fun htag h => ?_
    refine raises_of_test h (fun ha => ?_) fun _ => nofun
    have hteq := (tagEq_iff (by simp) (receivedTag_length (Nat.not_lt.mp hl))).mpr (not_not.mp htag)
    exact ⟨_, aeadDecFinalize_exhausted (Nat.not_lt.mp hl) hteq ha ▸ hexec, .verified data s⟩

/-! ### Every command -/

/-- The error that a command raises is the one of its row (R245). -/
theorem exec_raises {i : Instr} {s : State} {e : ErrorKind} (h : statusOf i s = .err e) : Raises i s e := by
  cases i with
  | init => exact init_raises h
  | updateAad => exact updateAad_raises h
  | update => exact update_raises h
  | finalize => exact finalize_raises h
  | getOutputSize => exact query_raises h

/-- A command whose row passes every test completes. -/
theorem exec_completes {i : Instr} {s : State} (h : statusOf i s = .ok) : ∃ t, exec i s = .next t ∧ Done i s t := by
  cases i with
  | init => exact init_completes h
  | updateAad => exact updateAad_completes h
  | update => exact update_completes h
  | finalize => exact finalize_completes h
  | getOutputSize => exact query_completes h

/-- A command that raises hands back the error's response and closes the session. -/
theorem Raises.responds {i : Instr} {s : State} {e : ErrorKind} (h : Raises i s e) :
    ∃ t, exec i s = .next t ∧ t.responses = ⟨.err e, 0, []⟩ :: s.responses ∧ t.phase = .uninit := by
  obtain ⟨s1, hx, hs⟩ := h
  exact ⟨_, hx, congrArg _ hs.responses, rfl⟩

/-- Settles O17: a command raises the error that its row names, or completes; an ILLEGAL frame raises `IllegalState`. -/
theorem errorPriority : Obligations.ErrorPriority := by
  refine ⟨fun i s => ?_, fun s f rest why hp hd => ?_⟩
  · cases hst : statusOf i s with
    | ok =>
      obtain ⟨t, hx, hdone⟩ := exec_completes hst
      obtain ⟨v, o, hr⟩ := hdone.responds_ok
      exact ⟨t, _, hx, hr, rfl⟩
    | err e =>
      obtain ⟨t, hx, hr, -⟩ := (exec_raises hst).responds
      exact ⟨t, _, hx, hr, rfl⟩
  · exact ⟨_, _, (step_frame hp).trans (runFrame_illegal hd _), rfl, rfl⟩

end Sys2Proof.Machine
end

section
/-! SUPPORT. What an error does to the session (60_exceptions.md R240, R243), and that no step stops the machine. -/

namespace Sys2Proof.Machine

open Sys2Proof

/-! ### The response of an error (R104, R231) -/

/-- The error kinds have the codes 1 to 7 (R231). -/
theorem errorCode_range (e : ErrorKind) : 1 ≤ (errorCode e).toNat ∧ (errorCode e).toNat ≤ 7 := by
  cases e <;> decide

theorem responseBytes_no_output (st : Status) :
    responseBytes ⟨st, 0, []⟩ = toLE32 (statusCode st) ++ List.replicate 8 0 := by
  have hzero : toLE64 0 = List.replicate 8 0 := by decide
  rw [responseBytes, hzero, List.append_nil]

/-- Settles O16: `raise` leaves the record standing, and its response carries no output. -/
theorem raiseInvalidates : Obligations.RaiseInvalidates := by
  intro i s hne
  cases hst : statusOf i s with
  | ok => exact absurd hst hne
  | err e =>
    obtain ⟨s1, hx, hs⟩ := exec_raises hst
    obtain ⟨hlo, hhi⟩ := errorCode_range e
    exact ⟨_, _, hx, congrArg _ hs.responses, rfl, rfl, rfl, responseBytes_no_output _, hlo, hhi, rfl, hs.key,
      hs.nonce, hs.knvalid, hs.cfg, hs.port⟩

/-! ### Leaving PHASE = UNINIT (R243) -/

/-- Settles O15: the row of INIT has three outcomes, and the phase table refuses every other command. -/
theorem onlyInitLeavesUninit : Obligations.OnlyInitLeavesUninit := by
  intro i s hp
  by_cases hi : ∃ dir mode key nonce ictr, i = .init dir mode key nonce ictr
  · obtain ⟨dir, mode, key, nonce, ictr, rfl⟩ := hi
    obtain ⟨ha, -⟩ | hst | hst := statusOf_init dir mode key nonce ictr s
    · obtain ⟨t, hx, hr, hpt, -⟩ := exec_init_session dir mode key nonce ictr ha
      exact ⟨t, _, hx, hr, .inl ⟨dir, mode, key, nonce, ictr, rfl, ha, rfl, hpt⟩⟩
    · obtain ⟨t, hx, hr, hpt⟩ := (exec_raises hst).responds
      exact ⟨t, _, hx, hr, .inr (.inl ⟨dir, mode, key, nonce, ictr, rfl, .inl rfl, hpt⟩)⟩
    · obtain ⟨t, hx, hr, hpt⟩ := (exec_raises hst).responds
      exact ⟨t, _, hx, hr, .inr (.inl ⟨dir, mode, key, nonce, ictr, rfl, .inr rfl, hpt⟩)⟩
  · simp only [not_exists] at hi
    exact ⟨_, _, exec_illegal (phaseAfterOk_of_uninit hp hi), rfl, .inr (.inr ⟨hi, rfl, rfl⟩)⟩

/-! ### Every step answers -/

theorem runFrame_next (f : Bytes) (s : State) : ∃ t, runFrame f s = .next t := by
  cases hd : decode f with
  | instr i =>
    obtain ⟨t, -, hx, -⟩ := exec_responds i s
    exact ⟨t, (runFrame_instr hd s).trans hx⟩
  | illegal why => exact ⟨_, runFrame_illegal hd s⟩

/-- Settles O10: waiting and the reset input answer; a frame spells a command, which completes or raises, or is ILLEGAL,
which raises. -/
theorem everyStepAnswersNext : Obligations.EveryStepAnswersNext := by
  intro s
  unfold step
  split
  next => exact ⟨_, rfl⟩
  next => exact ⟨_, rfl⟩
  next f _ _ => exact runFrame_next f (accept s)

end Sys2Proof.Machine
end

section
/-! SUPPORT. Waiting and the reset input (70_reset_and_hazards.md R260 to R262): after a reset the reuse guard has no pair
on record, and no session is open. -/

namespace Sys2Proof.Machine

open Sys2Proof

/-- Settles O7. -/
theorem stepWaitsForACommand : Obligations.StepWaitsForACommand := by
  intro s hp
  simp only [step, hp]

/-- The engine takes a reset event off its port and completes it. -/
theorem step_reset {s : State} {rest : List PortEvent} (h : s.port = .reset :: rest) :
    step s = .next (resetInput (accept s)) := by
  simp only [step, h]

/-- An INIT is refused for its pair only when there is a pair on record (42_init_and_query.md R162). -/
theorem knvalid_of_statusOf_init {dir : Dir} {mode : Mode} {key nonce : Bytes} {ictr : Word} {s : State}
    (h : statusOf (.init dir mode key nonce ictr) s = .err .nonceReuse) : s.knvalid = true := by
  obtain ⟨-, hkey⟩ | ⟨-, hpair⟩ := err_ite_eq_err.mp h
  · cases hkey
  · obtain ⟨⟨hkn, -⟩, -⟩ | ⟨-, hok⟩ := err_ite_eq_err.mp hpair
    · exact hkn
    · cases hok

/-- With no session and no pair on record, no command reports `NonceReuse`, and every command but INIT reports
`IllegalState`. -/
theorem exec_of_no_record {t : State} (hp : t.phase = .uninit) (hkn : t.knvalid = false) (i : Instr) :
    ∃ u r, exec i t = .next u ∧ u.responses = r :: t.responses ∧ r.status ≠ .err .nonceReuse ∧
      ((∃ dir mode key nonce ictr, i = .init dir mode key nonce ictr) ∨ r.status = .err .illegalState) := by
  by_cases hi : ∃ dir mode key nonce ictr, i = .init dir mode key nonce ictr
  · obtain ⟨u, r, hx, hr, hst⟩ := errorPriority.1 i t
    refine ⟨u, r, hx, hr, fun hreuse => ?_, .inl hi⟩
    obtain ⟨dir, mode, key, nonce, ictr, rfl⟩ := hi
    have hrecorded := knvalid_of_statusOf_init (hst.symm.trans hreuse)
    exact absurd (hkn.symm.trans hrecorded) Bool.false_ne_true
  · simp only [not_exists] at hi
    exact ⟨_, _, exec_illegal (phaseAfterOk_of_uninit hp hi), rfl, nofun, .inr rfl⟩

/-- Settles O8: the state after a reset has no session and no pair on record. -/
theorem resetInputForgetsThePair : Obligations.ResetInputForgetsThePair := by
  intro s rest hp
  have hport : (resetInput (accept s)).port = rest := by
    simp only [resetInput_port, accept_port, hp, List.drop_one, List.tail_cons]
  exact ⟨_, step_reset hp, rfl, rfl, hport, rfl, rfl, exec_of_no_record rfl rfl⟩

end Sys2Proof.Machine
end
